-- ==== Sys2Proof/Word.lean ====
section
/-! DEFINITION. The word types of the hardware (spec/00_scope.md R9): everything here is unsigned bits. -/

namespace Sys2Proof

/-- An 8-bit value: a general register, a memory byte, an immediate `kk`, a timer. -/
abbrev Byte := BitVec 8

/-- A 16-bit value: an instruction word, the index register, the program counter, a stack entry. -/
abbrev Word := BitVec 16

/-- A 4-bit field of an instruction word (R81): a register number `x` or `y`, or the row count `n`. -/
abbrev Nibble := BitVec 4

/-- The number of a general register, V0 to VF (spec/10_state.md R20): every nibble names one. -/
abbrev Reg := Nibble

/-- The 12-bit address field `nnn` of an instruction word (R81). -/
abbrev Addr := BitVec 12

end Sys2Proof
end

