-- ==== Sys2Proof/Syntax.lean ====
section
/-! DEFINITION. The instructions: one constructor per row of spec/opcode_table.json (spec/30_encoding.md R92),
with the fields its format gives it (R82, R83). -/

namespace Sys2Proof

/-- The 34 instructions. `x` and `y` are register numbers, `kk` an 8-bit immediate, `nnn` a 12-bit address and `n`
a row count, each of exactly the width of its field, so that every term is an instruction the hardware has. -/
inductive Instr where
  /-- CLS, 00E0: clear screen (R170). -/
  | cls
  /-- RET, 00EE: return (R110). -/
  | ret
  /-- JP nnn, 1nnn: jump (R111). -/
  | jp (nnn : Addr)
  /-- CALL nnn, 2nnn: call subroutine (R112). -/
  | call (nnn : Addr)
  /-- SE_IMM Vx, kk, 3xkk: skip if equal to immediate (R113). -/
  | seImm (x : Reg) (kk : Byte)
  /-- SNE_IMM Vx, kk, 4xkk: skip if not equal to immediate (R114). -/
  | sneImm (x : Reg) (kk : Byte)
  /-- SE_REG Vx, Vy, 5xy0: skip if registers equal (R115). -/
  | seReg (x y : Reg)
  /-- LD_IMM Vx, kk, 6xkk: load immediate (R130). -/
  | ldImm (x : Reg) (kk : Byte)
  /-- ADD_IMM Vx, kk, 7xkk: add immediate (R131). -/
  | addImm (x : Reg) (kk : Byte)
  /-- LD_REG Vx, Vy, 8xy0: assign (R132). -/
  | ldReg (x y : Reg)
  /-- OR Vx, Vy, 8xy1 (R133). -/
  | or (x y : Reg)
  /-- AND Vx, Vy, 8xy2 (R134). -/
  | and (x y : Reg)
  /-- XOR Vx, Vy, 8xy3 (R135). -/
  | xor (x y : Reg)
  /-- ADD_REG Vx, Vy, 8xy4: add with carry out (R136). -/
  | addReg (x y : Reg)
  /-- SUB Vx, Vy, 8xy5: subtract with not-borrow out (R137). -/
  | sub (x y : Reg)
  /-- SHR Vx, Vy, 8xy6: shift right by one (R138); `y` is kept and ignored (R96). -/
  | shr (x y : Reg)
  /-- SUBN Vx, Vy, 8xy7: reverse subtract with not-borrow out (R139). -/
  | subn (x y : Reg)
  /-- SHL Vx, Vy, 8xyE: shift left by one (R140); `y` is kept and ignored (R96). -/
  | shl (x y : Reg)
  /-- SNE_REG Vx, Vy, 9xy0: skip if registers differ (R116). -/
  | sneReg (x y : Reg)
  /-- LD_I nnn, Annn: load index register (R150). -/
  | ldI (nnn : Addr)
  /-- JP_V0 nnn, Bnnn: jump to address plus V0 (R117). -/
  | jpV0 (nnn : Addr)
  /-- RND Vx, kk, Cxkk: random byte masked by immediate (R141). -/
  | rnd (x : Reg) (kk : Byte)
  /-- DRW Vx, Vy, n, Dxyn: draw sprite (R171). -/
  | drw (x y : Reg) (n : Nibble)
  /-- SKP Vx, Ex9E: skip if key pressed (R180). -/
  | skp (x : Reg)
  /-- SKNP Vx, ExA1: skip if key not pressed (R181). -/
  | sknp (x : Reg)
  /-- LD_VX_DT Vx, Fx07: read delay timer (R182). -/
  | ldVxDt (x : Reg)
  /-- LD_VX_K Vx, Fx0A: wait for a key (R183). -/
  | ldVxK (x : Reg)
  /-- LD_DT_VX Vx, Fx15: set delay timer (R184). -/
  | ldDtVx (x : Reg)
  /-- LD_ST_VX Vx, Fx18: set sound timer (R185). -/
  | ldStVx (x : Reg)
  /-- ADD_I Vx, Fx1E: add register to index (R151). -/
  | addI (x : Reg)
  /-- LD_F Vx, Fx29: point I at a font glyph (R152). -/
  | ldF (x : Reg)
  /-- LD_B Vx, Fx33: store decimal digits (R153). -/
  | ldB (x : Reg)
  /-- ST_REGS Vx, Fx55: store registers V0 to Vx (R154). -/
  | stRegs (x : Reg)
  /-- LD_REGS Vx, Fx65: load registers V0 to Vx (R155). -/
  | ldRegs (x : Reg)
  deriving DecidableEq, Repr

end Sys2Proof
end

