-- ==== Sys2Proof/Decode.lean ====
section
/-! DEFINITION. Decoding (spec/30_encoding.md R80 to R91, R96), total on any word and on any bytes, rejecting by name;
and the encoder, written from the same formats (R82). Neither looks at any state (R84). -/

namespace Sys2Proof

/-- Why the decoder refuses. -/
inductive DecodeError where
  /-- The word is none of the 34 instructions (R90); executing it raises ILLEGAL_INSTRUCTION (R202). -/
  | unrecognized (w : Word)
  /-- Fewer than two bytes are left: no word to decode. A step never meets it, since a fetch reads two bytes (R53). -/
  | truncated
  deriving DecidableEq, Repr

/-- The opcode family, `instr[15:12]` (R81). -/
def opField (w : Word) : Nibble := w.extractLsb' 12 4

/-- `x` = `instr[11:8]` (R81). -/
def xField (w : Word) : Reg := w.extractLsb' 8 4

/-- `y` = `instr[7:4]` (R81). -/
def yField (w : Word) : Reg := w.extractLsb' 4 4

/-- `n` = `instr[3:0]` (R81). -/
def nField (w : Word) : Nibble := w.extractLsb' 0 4

/-- `kk` = `instr[7:0]` (R81). -/
def kkField (w : Word) : Byte := w.extractLsb' 0 8

/-- `nnn` = `instr[11:0]` (R81). -/
def nnnField (w : Word) : Addr := w.extractLsb' 0 12

/-- Family 0x0: the whole word is matched (R85). -/
def decodeFamily0 (w : Word) : Option Instr :=
  if w = 0x00E0#16 then some .cls
  else if w = 0x00EE#16 then some .ret
  else none

/-- Family 0x8, selected by the low nibble (R86). -/
def decodeFamily8 (n : Nibble) (x y : Reg) : Option Instr :=
  if n = 0x0#4 then some (.ldReg x y)
  else if n = 0x1#4 then some (.or x y)
  else if n = 0x2#4 then some (.and x y)
  else if n = 0x3#4 then some (.xor x y)
  else if n = 0x4#4 then some (.addReg x y)
  else if n = 0x5#4 then some (.sub x y)
  else if n = 0x6#4 then some (.shr x y)
  else if n = 0x7#4 then some (.subn x y)
  else if n = 0xE#4 then some (.shl x y)
  else none

/-- Family 0xE, selected by the low byte (R87). -/
def decodeFamilyE (kk : Byte) (x : Reg) : Option Instr :=
  if kk = 0x9E#8 then some (.skp x)
  else if kk = 0xA1#8 then some (.sknp x)
  else none

/-- Family 0xF, selected by the low byte (R88). -/
def decodeFamilyF (kk : Byte) (x : Reg) : Option Instr :=
  if kk = 0x07#8 then some (.ldVxDt x)
  else if kk = 0x0A#8 then some (.ldVxK x)
  else if kk = 0x15#8 then some (.ldDtVx x)
  else if kk = 0x18#8 then some (.ldStVx x)
  else if kk = 0x1E#8 then some (.addI x)
  else if kk = 0x29#8 then some (.ldF x)
  else if kk = 0x33#8 then some (.ldB x)
  else if kk = 0x55#8 then some (.stRegs x)
  else if kk = 0x65#8 then some (.ldRegs x)
  else none

/-- The first level of the opcode map: the family nibble (R84, R89). -/
def decodeFields (w : Word) : Option Instr :=
  let op := opField w
  if op = 0x0#4 then decodeFamily0 w
  else if op = 0x1#4 then some (.jp (nnnField w))
  else if op = 0x2#4 then some (.call (nnnField w))
  else if op = 0x3#4 then some (.seImm (xField w) (kkField w))
  else if op = 0x4#4 then some (.sneImm (xField w) (kkField w))
  else if op = 0x5#4 then (if nField w = 0x0#4 then some (.seReg (xField w) (yField w)) else none)
  else if op = 0x6#4 then some (.ldImm (xField w) (kkField w))
  else if op = 0x7#4 then some (.addImm (xField w) (kkField w))
  else if op = 0x8#4 then decodeFamily8 (nField w) (xField w) (yField w)
  else if op = 0x9#4 then (if nField w = 0x0#4 then some (.sneReg (xField w) (yField w)) else none)
  else if op = 0xA#4 then some (.ldI (nnnField w))
  else if op = 0xB#4 then some (.jpV0 (nnnField w))
  else if op = 0xC#4 then some (.rnd (xField w) (kkField w))
  else if op = 0xD#4 then some (.drw (xField w) (yField w) (nField w))
  else if op = 0xE#4 then decodeFamilyE (kkField w) (xField w)
  else decodeFamilyF (kkField w) (xField w)

/-- The decoder: a word is one of the 34 instructions or is refused by name (R90). -/
def decodeWord (w : Word) : Except DecodeError Instr :=
  match decodeFields w with
  | some i => .ok i
  | none => .error (.unrecognized w)

/-- Two bytes as an instruction word, the byte of the lower address the more significant (spec/20_memory.md R53). -/
def wordOfBytes (hi lo : Byte) : Word := (hi ++ lo).cast (rfl : 8 + 8 = 16)

/-- The byte of the lower address of an instruction word, `instr[15:8]` (R53). -/
def highByte (w : Word) : Byte := w.extractLsb' 8 8

/-- The byte of the higher address of an instruction word, `instr[7:0]` (R53). -/
def lowByte (w : Word) : Byte := w.extractLsb' 0 8

/-- The decoder on bytes: the instruction at the head of the list, and the bytes after it. -/
def decodeBytes : List Byte → Except DecodeError (Instr × List Byte)
  | hi :: lo :: rest =>
    match decodeWord (wordOfBytes hi lo) with
    | .ok i => .ok (i, rest)
    | .error e => .error e
  | _ => .error .truncated

/-- Format NNN (R82). -/
def encodeNNN (op : Nibble) (nnn : Addr) : Word := (op ++ nnn).cast (rfl : 4 + 12 = 16)

/-- Format XKK (R82). -/
def encodeXKK (op : Nibble) (x : Reg) (kk : Byte) : Word := ((op ++ x) ++ kk).cast (rfl : 4 + 4 + 8 = 16)

/-- Formats XY and XYN (R82): `n` is the sub-opcode or the row count. -/
def encodeXYN (op : Nibble) (x y : Reg) (n : Nibble) : Word :=
  ((op ++ x) ++ (y ++ n)).cast (rfl : 4 + 4 + (4 + 4) = 16)

/-- The encoder, the inverse of decoding on terms (R96). -/
def encode : Instr → Word
  | .cls => 0x00E0#16
  | .ret => 0x00EE#16
  | .jp nnn => encodeNNN 0x1 nnn
  | .call nnn => encodeNNN 0x2 nnn
  | .seImm x kk => encodeXKK 0x3 x kk
  | .sneImm x kk => encodeXKK 0x4 x kk
  | .seReg x y => encodeXYN 0x5 x y 0x0
  | .ldImm x kk => encodeXKK 0x6 x kk
  | .addImm x kk => encodeXKK 0x7 x kk
  | .ldReg x y => encodeXYN 0x8 x y 0x0
  | .or x y => encodeXYN 0x8 x y 0x1
  | .and x y => encodeXYN 0x8 x y 0x2
  | .xor x y => encodeXYN 0x8 x y 0x3
  | .addReg x y => encodeXYN 0x8 x y 0x4
  | .sub x y => encodeXYN 0x8 x y 0x5
  | .shr x y => encodeXYN 0x8 x y 0x6
  | .subn x y => encodeXYN 0x8 x y 0x7
  | .shl x y => encodeXYN 0x8 x y 0xE
  | .sneReg x y => encodeXYN 0x9 x y 0x0
  | .ldI nnn => encodeNNN 0xA nnn
  | .jpV0 nnn => encodeNNN 0xB nnn
  | .rnd x kk => encodeXKK 0xC x kk
  | .drw x y n => encodeXYN 0xD x y n
  | .skp x => encodeXKK 0xE x 0x9E
  | .sknp x => encodeXKK 0xE x 0xA1
  | .ldVxDt x => encodeXKK 0xF x 0x07
  | .ldVxK x => encodeXKK 0xF x 0x0A
  | .ldDtVx x => encodeXKK 0xF x 0x15
  | .ldStVx x => encodeXKK 0xF x 0x18
  | .addI x => encodeXKK 0xF x 0x1E
  | .ldF x => encodeXKK 0xF x 0x29
  | .ldB x => encodeXKK 0xF x 0x33
  | .stRegs x => encodeXKK 0xF x 0x55
  | .ldRegs x => encodeXKK 0xF x 0x65

/-- The bytes of an instruction in memory order (R53). -/
def encodeBytes (i : Instr) : List Byte := [highByte (encode i), lowByte (encode i)]

/-- The instruction word whose bits are `w`, of which the opcode table gives `nbits`; every bit above them is 0. -/
def tableWord (nbits w : Nat) : Word := BitVec.ofNat 16 (w % 2 ^ min nbits 16)

/-- What the decoder reads from an instruction whose bits are `w`, numbered as spec/opcode_table.json numbers them:
the word is laid out high byte first, as memory holds it, and given to the decoder. -/
def decodeTableWord (nbits w : Nat) : Option Instr :=
  match decodeBytes [highByte (tableWord nbits w), lowByte (tableWord nbits w)] with
  | .ok (i, _) => some i
  | .error _ => none

end Sys2Proof
end

