-- ==== Sys2Proof/Config.lean ====
section
/-! DEFINITION. What is fixed for this hardware (spec/00_scope.md R8), the parameters R8 leaves OPEN, and the
free value of RND. An `opaque` constant here has no body: nothing can be proved of its value, so a theorem that
mentions it holds for every admissible value. -/

namespace Sys2Proof.Config

/-- MEM_SIZE (R8): the bytes of main memory; an address is masked modulo this number (R52). -/
abbrev memSize : Nat := 4096

/-- ROM_BASE (R8). -/
abbrev romBase : Nat := 0x200

/-- ROM_MAX (R8): the longest ROM image, 4096 - 0x200 bytes. -/
abbrev romMax : Nat := 3584

/-- PC_RESET (R8). -/
abbrev pcReset : Word := 0x0200#16

/-- STACK_DEPTH (R8): 16 entries, the choice of the spec's decision D6. -/
abbrev stackDepth : Nat := 16

/-- FB_H (R8): rows of the framebuffer. -/
abbrev fbHeight : Nat := 32

/-- FB_W (R8): columns of the framebuffer. -/
abbrev fbWidth : Nat := 64

/-- NKEYS (R8). -/
abbrev keyCount : Nat := 16

/-- The size of the font table: FONT_GLYPHS * FONT_GLYPH_BYTES = 80 bytes (R8). -/
abbrev fontSize : Nat := 80

/-- FONT_GLYPH_BYTES (R8). -/
abbrev glyphBytes : Nat := 5

/-- FONT_BASE, OPEN (R8, decision D10): any address from 0x000 to 0x1B0, so that the 80 font bytes end by 0x1FF.
DESIGN CHOICE, safe: the value is left open (log entry 1). -/
opaque fontBase : Fin 0x1B1

/-- FONT_TABLE, OPEN (R8, decision D11): glyph g is bytes 5g to 5g+4.
DESIGN CHOICE, safe: the bytes are left open (log entry 2). -/
opaque fontTable : Fin 80 → Byte

/-- The byte the randomness source answers to the draw numbered `k` of a run (`draw8` of R10, R31; decision D17).
DESIGN CHOICE, safe: no value of it is known (log entry 3). -/
opaque draw : Nat → Byte

/-- The default FONT_BASE that the spec gives its test vectors (R8); no rule and no operation uses it. -/
def defaultFontBase : Nat := 0x050

/-- The default FONT_TABLE that the spec gives its test vectors (spec/10_state.md R30), glyphs 0 to 7. -/
def defaultFontLow : List Byte :=
  [0xF0, 0x90, 0x90, 0x90, 0xF0,  0x20, 0x60, 0x20, 0x20, 0x70,
   0xF0, 0x10, 0xF0, 0x80, 0xF0,  0xF0, 0x10, 0xF0, 0x10, 0xF0,
   0x90, 0x90, 0xF0, 0x10, 0x10,  0xF0, 0x80, 0xF0, 0x10, 0xF0,
   0xF0, 0x80, 0xF0, 0x90, 0xF0,  0xF0, 0x10, 0x20, 0x40, 0x40]

/-- The default FONT_TABLE (R30), glyphs 8 to F. -/
def defaultFontHigh : List Byte :=
  [0xF0, 0x90, 0xF0, 0x90, 0xF0,  0xF0, 0x90, 0xF0, 0x10, 0xF0,
   0xF0, 0x90, 0xF0, 0x90, 0x90,  0xE0, 0x90, 0xE0, 0x90, 0xE0,
   0xF0, 0x80, 0x80, 0x80, 0xF0,  0xE0, 0x90, 0x90, 0x90, 0xE0,
   0xF0, 0x80, 0xF0, 0x80, 0xF0,  0xF0, 0x80, 0xF0, 0x80, 0x80]

/-- The default FONT_TABLE (R30): 80 bytes, for test vectors only; no rule and no operation uses it. -/
def defaultFontTable : List Byte := defaultFontLow ++ defaultFontHigh

end Sys2Proof.Config
end

