-- ==== Sys2Proof/Machine/State.lean ====
section
/-! DEFINITION. The state of the block, all of it (spec/10_state.md), as plain data; its reset value (R35); and the
reasons a step or a host move can stop. -/

namespace Sys2Proof.Machine

/-- The framebuffer (R28): 32 rows of 64 one-bit pixels, row 0 the top, column 0 the left. -/
abbrev Framebuffer := Vector (Vector Bool 64) 32

/-- The key vector (R29): 16 pressed flags. -/
abbrev Keys := Vector Bool 16

/-- Main memory (R30) as address and byte pairs; an address that is not listed reads as after reset. The canonical
form is `Memory.wf`. -/
abbrev Memory := List Host.Cell

/-- `FAULT.code` (R32, R201): which of the three faults halted the core. -/
inductive FaultCode where
  /-- 0: the core is running. -/
  | running
  /-- 1: ILLEGAL_INSTRUCTION, raised by a step at decode (R202). -/
  | illegalInstruction
  /-- 2: STACK_OVERFLOW, raised by CALL with `SP` = 16 (R203). -/
  | stackOverflow
  /-- 3: STACK_UNDERFLOW, raised by RET with `SP` = 0 (R204). -/
  | stackUnderflow
  deriving DecidableEq, Repr

/-- The number of a fault code (R201), 2 bits. -/
def FaultCode.number : FaultCode → BitVec 2
  | .running => 0
  | .illegalInstruction => 1
  | .stackOverflow => 2
  | .stackUnderflow => 3

/-- The fault latch `FAULT` (R32). -/
structure FaultLatch where
  /-- `FAULT.code`. -/
  code : FaultCode
  /-- `FAULT.pc`: the `pc` of the faulting instruction; 0 while the core runs. -/
  pc : Word
  /-- `FAULT.instr`: the faulting instruction word; 0 while the core runs. -/
  instr : Word
  deriving DecidableEq, Repr

/-- The latch of a core that has met no fault (R32, R35). -/
def FaultLatch.clear : FaultLatch := ⟨.running, 0, 0⟩

/-- The state of the block. -/
structure State where
  /-- V0 to VF (R20); VF doubles as the flag (R21). -/
  v : Vector Byte 16
  /-- The index register I, all 16 bits kept (R22). -/
  i : Word
  /-- The program counter, all 16 bits kept (R23). -/
  pc : Word
  /-- The call stack, 16 return addresses (R24). -/
  stack : Vector Word 16
  /-- `SP` (R25): the count of return addresses now on the stack, 0 to 16. -/
  sp : Fin 17
  /-- The delay timer (R26). -/
  dt : Byte
  /-- The sound timer (R27). -/
  st : Byte
  /-- The framebuffer (R28). -/
  fb : Framebuffer
  /-- The key vector (R29), an input of the block. -/
  key : Keys
  /-- Main memory (R30). -/
  mem : Memory
  /-- The fault latch (R32). -/
  fault : FaultLatch
  /-- THE MODEL'S OWN FIELD, no state of the hardware (R31): how many bytes RND has drawn so far, so that every RND
  takes a free value of its own. DESIGN CHOICE (log entries 3 and 4). -/
  draws : Nat
  deriving DecidableEq, Repr

/-- The machine right after `initialize` (R35, R240): everything zero but `pc`, and memory as an unlisted address
reads it, the font bytes at FONT_BASE and zeros elsewhere. -/
def State.reset : State where
  v := Vector.replicate 16 0
  i := 0
  pc := Config.pcReset
  stack := Vector.replicate 16 0
  sp := 0
  dt := 0
  st := 0
  fb := Vector.replicate 32 (Vector.replicate 64 false)
  key := Vector.replicate 16 false
  mem := []
  fault := FaultLatch.clear
  draws := 0

/-- The faults that end a step without a next state: there are none. Each of the hardware's three faults is a next
state, whose whole effect is to write the latch `FAULT` and so halt the core (R205, R206), and the spec says that
nothing else is a fault (R215). An empty type: safe, nothing can be proved from a fault that is never raised. -/
inductive Fault : Type
  deriving DecidableEq, Repr

/-- Why a move is refused. No instruction and no step answers with a refusal. -/
inductive Refusal where
  /-- An instruction that has no meaning in the model yet, by the mnemonic of spec/opcode_table.json: raised by an
  arm of `exec` only, and no arm raises it. Safe: the run stops. -/
  | notModelled (mnemonic : String)
  /-- ROM_TOO_LARGE, raised by the host's ROM load of more than 3584 bytes (R217, R242). Safe: the load writes
  nothing, as the spec says. -/
  | romTooLarge
  /-- A host move outside the host's contract (R216, R240, R243), raised by `Session.move`: the spec gives it no
  effect. Safe: the session stops. -/
  | moveNotAllowed
  deriving DecidableEq, Repr

/-- What the meaning of an instruction answers. -/
abbrev Answer := Host.Outcome State Fault Refusal

end Sys2Proof.Machine
end

