-- ==== Sys2Proof/Machine/Ops.lean ====
section
/-! DEFINITION. The named operations over memory, registers, the stack, the framebuffer and the fault latch
(spec/00_scope.md R10, spec/20_memory.md, spec/60_exceptions.md R205). -/

namespace Sys2Proof.Machine

/-! ### Main memory -/

/-- What the font table holds at address `a` after initialization, 0 outside it (spec/10_state.md R30, R35). -/
def fontByte (a : Nat) : Byte :=
  if h : Config.fontBase.val ≤ a ∧ a < Config.fontBase.val + 80 then
    Config.fontTable ⟨a - Config.fontBase.val, by omega⟩
  else 0

/-- What an address that memory does not list reads as: its content after initialization (R35). The font lies
below 0x200 (R8), so from ROM_BASE on every byte is 0. -/
def Memory.unlisted (a : Nat) : Byte := if Config.romBase ≤ a then 0 else fontByte a

/-- The byte at address `a`. -/
def Memory.read : Memory → Nat → Byte
  | [], a => Memory.unlisted a
  | c :: m, a => if c.1 = a then c.2 else Memory.read m a

/-- `m` with `(a, b)` listed in its place among rising addresses. -/
def Memory.insert : Memory → Nat → Byte → Memory
  | [], a, b => [(a, b)]
  | c :: m, a, b =>
    if a < c.1 then (a, b) :: c :: m
    else if c.1 = a then (a, b) :: m
    else c :: Memory.insert m a b

/-- `m` without address `a`, which then reads as after initialization. -/
def Memory.erase (m : Memory) (a : Nat) : Memory := m.filter fun c => c.1 ≠ a

/-- Memory with byte `a` become `b`: listed, unless that is what an unlisted `a` reads as. -/
def Memory.write (m : Memory) (a : Nat) (b : Byte) : Memory :=
  if b = Memory.unlisted a then m.erase a else m.insert a b

/-- The canonical form of memory whose addresses are all `lo` or more. -/
def Memory.wfFrom (lo : Nat) : Memory → Bool
  | [] => true
  | c :: m =>
    decide (lo ≤ c.1) && decide (c.1 < Config.memSize) && decide (c.2 ≠ Memory.unlisted c.1) && Memory.wfFrom (c.1 + 1) m

/-- The canonical form: addresses strictly rising and below 4096, no byte equal to what its address reads as when
it is not listed. -/
def Memory.wf (m : Memory) : Bool := Memory.wfFrom 0 m

/-- The mask on every address (R52): modulo 4096, for any natural number. -/
def maskAddress (addr : Nat) : Nat := addr % Config.memSize

/-- `MemRead(addr, 1)` (R10, R52). -/
def State.memRead (s : State) (addr : Nat) : Byte := s.mem.read (maskAddress addr)

/-- `MemWrite(addr, 1, b)` (R10, R52). -/
def State.memWrite (s : State) (addr : Nat) (b : Byte) : State :=
  { s with mem := s.mem.write (maskAddress addr) b }

/-- `Fetch16(a)` (R10, R53): two byte reads, each masked, the first the more significant. -/
def State.fetch16 (s : State) (a : Nat) : Word := wordOfBytes (s.memRead a) (s.memRead (a + 1))

/-- The bytes `bs` stored at `addr` and the addresses after it, in ascending order (R54), each masked (R52). -/
def State.memWriteList (s : State) (addr : Nat) : List Byte → State
  | [] => s
  | b :: bs => (s.memWrite addr b).memWriteList (addr + 1) bs

/-! ### Registers -/

/-- Read of the general register `x` (R10, R20). -/
def State.readV (s : State) (x : Reg) : Byte := s.v[x.toNat]'x.isLt

/-- Write of the general register `x` (R10, R20). -/
def State.writeV (s : State) (x : Reg) (b : Byte) : State := { s with v := s.v.set x.toNat b x.isLt }

/-- Write of the index register (R22). -/
def State.setI (s : State) (w : Word) : State := { s with i := w }

/-- Write of the program counter (R23). -/
def State.setPc (s : State) (w : Word) : State := { s with pc := w }

/-- `pc <- pc + 2`, modulo 65536 (R10, R95). -/
def State.advancePc (s : State) : State := s.setPc (s.pc + 2)

/-- The skip (R95): `pc <- pc + 4` when the condition holds, else `pc <- pc + 2`. The word passed over is neither
fetched nor decoded. -/
def State.skipIf (s : State) (taken : Bool) : State := s.setPc (if taken then s.pc + 4 else s.pc + 2)

/-- Write of the delay timer (R26). -/
def State.setDt (s : State) (b : Byte) : State := { s with dt := b }

/-- Write of the sound timer (R27). -/
def State.setSt (s : State) (b : Byte) : State := { s with st := b }

/-! ### The call stack -/

/-- A push (R25): `stack[SP]` is written, then `SP` goes up by one. CALL makes it only when `SP` < 16 (R65). -/
def State.push (s : State) (w : Word) : State :=
  { s with stack := s.stack.setIfInBounds s.sp.val w, sp := s.sp + 1 }

/-- The entry a pop reads, `stack[SP - 1]` (R25). -/
def State.top (s : State) : Word := s.stack[s.sp.val - 1]

/-- A pop (R25): `SP` goes down by one and the entry keeps its value. RET makes it only when `SP` > 0 (R65). -/
def State.pop (s : State) : State := { s with sp := s.sp - 1 }

/-! ### The framebuffer and the keys -/

/-- The pixel at row `r` and column `c` (R28). -/
def Framebuffer.pixel (fb : Framebuffer) (r : Fin 32) (c : Fin 64) : Bool := (fb[r.val])[c.val]

/-- The framebuffer with the pixel at row `r` and column `c` exclusive-ORed with 1 (R171). -/
def Framebuffer.flip (fb : Framebuffer) (r : Fin 32) (c : Fin 64) : Framebuffer :=
  fb.set r.val ((fb[r.val]).set c.val (!fb.pixel r c))

/-- The framebuffer with every pixel 0 (R170). -/
def Framebuffer.blank : Framebuffer := Vector.replicate 32 (Vector.replicate 64 false)

/-- Write of the whole framebuffer (CLS, DRW). -/
def State.setFb (s : State) (fb : Framebuffer) : State := { s with fb := fb }

/-- Whether key `k` is pressed (R29). -/
def State.keyPressed (s : State) (k : Nibble) : Bool := s.key[k.toNat]'k.isLt

/-- The least index of a pressed key, if any key is pressed (R183). -/
def State.firstPressed (s : State) : Option Nibble :=
  ((List.range 16).map (BitVec.ofNat 4)).find? fun k => s.keyPressed k

/-! ### The randomness source -/

/-- `draw8()` (R10, R31): the free byte of the next draw. -/
def State.drawByte (s : State) : Byte := Config.draw s.draws

/-- The draw is used up: the next RND meets another free byte. -/
def State.countDraw (s : State) : State := { s with draws := s.draws + 1 }

/-! ### Taking a fault -/

/-- Fault entry, `raise F(p, w)` (spec/60_exceptions.md R205): the latch records the code, the `pc` of the faulting
instruction and its word, and nothing else changes, `pc` included; there is no vector and no handler. From then on
the core is halted (R206). There is no return from a fault (R207): only the host's initialize clears the latch. -/
def State.raiseFault (s : State) (code : FaultCode) (p w : Word) : State := { s with fault := ⟨code, p, w⟩ }

/-- Whether the core is halted: `FAULT.code` is not 0 (R206). -/
def State.halted (s : State) : Bool := s.fault.code != .running

end Sys2Proof.Machine
end

