-- ==== Sys2Proof/Machine/Flags.lean ====
section
/-! DEFINITION. The flag computations (spec/41_alu.md R142, R143): VF is the only flag (spec/10_state.md R21). -/

namespace Sys2Proof.Machine

/-- The number of the flag register VF (R21). -/
abbrev flagReg : Reg := 0xF#4

/-- A flag as the byte VF holds: 1 or 0 (R21). -/
def flagByte (f : Bool) : Byte := if f then 1 else 0

/-- The carry out of a + b (R136, R143). -/
def carryOut (a b : Byte) : Bool := decide (a.toNat + b.toNat > 255)

/-- No borrow in a - b (R137, R143): a is b or more. -/
def noBorrow (a b : Byte) : Bool := decide (b.toNat ≤ a.toNat)

/-- The bit a right shift puts out: bit 0 (R138). -/
def lowBit (a : Byte) : Bool := a.getLsbD 0

/-- The bit a left shift puts out: bit 7 (R140). -/
def highBit (a : Byte) : Bool := a.getLsbD 7

/-- The write order of the ALU family (R142): the result to Vx, then the flag to VF, last. -/
def State.writeResultThenFlag (s : State) (x : Reg) (result : Byte) (f : Bool) : State :=
  (s.writeV x result).writeV flagReg (flagByte f)

end Sys2Proof.Machine
end

