-- ==== Sys2Proof/Machine/Operands.lean ====
section
/-! DEFINITION. The operand forms: what an instruction's fields select (spec/30_encoding.md R83), the one addressing
mode (spec/42_index_memory.md R156), and the block moves that use it. -/

namespace Sys2Proof.Machine

/-- `zext_16(nnn)` (R10, R83): the address field as a 16-bit value. -/
def extendAddr (nnn : Addr) : Word := nnn.setWidth 16

/-- `zext_16(V[x])` (R10): a register as a 16-bit value. -/
def extendByte (b : Byte) : Word := b.setWidth 16

/-- The address of byte `k` of a data access, I + k before the mask (R156); the access masks the sum (R52). -/
def State.dataAddress (s : State) (k : Nat) : Nat := s.i.toNat + k

/-- The key that Vx selects, `V[x] mod 16` (spec/20_memory.md R66). -/
def State.keyIndex (s : State) (x : Reg) : Nibble := (s.readV x).setWidth 4

/-- `V[x] mod 64`, the start column of a sprite (R171). -/
def State.spriteColumn (s : State) (x : Reg) : Nat := (s.readV x).toNat % Config.fbWidth

/-- `V[y] mod 32`, the start row of a sprite (R171). -/
def State.spriteRow (s : State) (y : Reg) : Nat := (s.readV y).toNat % Config.fbHeight

/-- The address of the font glyph numbered `b` when the font table starts at `base` (R152): the whole byte counts. -/
def glyphAddress (base : Nat) (b : Byte) : Word := BitVec.ofNat 16 (base + Config.glyphBytes * b.toNat)

/-- The decimal digits of a byte, hundreds, tens, ones (R153). -/
def decimalDigits (b : Byte) : List Byte :=
  [BitVec.ofNat 8 (b.toNat / 100), BitVec.ofNat 8 (b.toNat / 10 % 10), BitVec.ofNat 8 (b.toNat % 10)]

/-- Registers V0 to V(count - 1) stored at I + 0 to I + (count - 1), V0 first (R154). -/
def State.storeRegisters (s : State) : Nat → State
  | 0 => s
  | k + 1 => (s.storeRegisters k).memWrite (s.dataAddress k) (s.readV (BitVec.ofNat 4 k))

/-- Registers V0 to V(count - 1) loaded from I + 0 to I + (count - 1), V0 first (R155). -/
def State.loadRegisters (s : State) : Nat → State
  | 0 => s
  | k + 1 => (s.loadRegisters k).writeV (BitVec.ofNat 4 k) (s.memRead (s.dataAddress k))

end Sys2Proof.Machine
end

