-- ==== Sys2Proof/Machine/Alu.lean ====
section
/-! DEFINITION. Load, arithmetic, logic, shift and random instructions (spec/41_alu.md). Operands are read from the
state before any write (R142), and every one of the twelve adds 2 to `pc`. -/

namespace Sys2Proof.Machine

/-- LD_IMM Vx, kk (R130). -/
def execLdImm (x : Reg) (kk : Byte) (s : State) : Answer := .next (s.writeV x kk).advancePc

/-- ADD_IMM Vx, kk (R131): wraps, no flag. -/
def execAddImm (x : Reg) (kk : Byte) (s : State) : Answer := .next (s.writeV x (s.readV x + kk)).advancePc

/-- LD_REG Vx, Vy (R132). -/
def execLdReg (x y : Reg) (s : State) : Answer := .next (s.writeV x (s.readV y)).advancePc

/-- OR Vx, Vy (R133): VF is not written. -/
def execOr (x y : Reg) (s : State) : Answer := .next (s.writeV x (s.readV x ||| s.readV y)).advancePc

/-- AND Vx, Vy (R134): VF is not written. -/
def execAnd (x y : Reg) (s : State) : Answer := .next (s.writeV x (s.readV x &&& s.readV y)).advancePc

/-- XOR Vx, Vy (R135): VF is not written. -/
def execXor (x y : Reg) (s : State) : Answer := .next (s.writeV x (s.readV x ^^^ s.readV y)).advancePc

/-- ADD_REG Vx, Vy (R136). -/
def execAddReg (x y : Reg) (s : State) : Answer :=
  .next (s.writeResultThenFlag x (s.readV x + s.readV y) (carryOut (s.readV x) (s.readV y))).advancePc

/-- SUB Vx, Vy (R137). -/
def execSub (x y : Reg) (s : State) : Answer :=
  .next (s.writeResultThenFlag x (s.readV x - s.readV y) (noBorrow (s.readV x) (s.readV y))).advancePc

/-- SHR Vx, Vy (R138): Vx is shifted in place, `y` is ignored. -/
def execShr (x _y : Reg) (s : State) : Answer :=
  .next (s.writeResultThenFlag x (s.readV x >>> 1) (lowBit (s.readV x))).advancePc

/-- SUBN Vx, Vy (R139). -/
def execSubn (x y : Reg) (s : State) : Answer :=
  .next (s.writeResultThenFlag x (s.readV y - s.readV x) (noBorrow (s.readV y) (s.readV x))).advancePc

/-- SHL Vx, Vy (R140): Vx is shifted in place, `y` is ignored. -/
def execShl (x _y : Reg) (s : State) : Answer :=
  .next (s.writeResultThenFlag x (s.readV x <<< 1) (highBit (s.readV x))).advancePc

/-- RND Vx, kk (R141): a free byte ANDed with the immediate. -/
def execRnd (x : Reg) (kk : Byte) (s : State) : Answer :=
  .next (s.writeV x (s.drawByte &&& kk)).countDraw.advancePc

end Sys2Proof.Machine
end

