-- ==== Sys2Proof/Machine/Display.lean ====
section
/-! DEFINITION. Display instructions (spec/43_display.md): CLS and DRW, whose loops are the rule's own. -/

namespace Sys2Proof.Machine

/-- A drawing in progress (R171): the framebuffer so far, and whether a set pixel has met a sprite bit. -/
structure Drawing where
  fb : Framebuffer
  collision : Bool
  deriving DecidableEq, Repr

/-- A sprite bit of 1 at row `r` and column `c`, any natural numbers: the pixel they wrap to is exclusive-ORed, and
a pixel that was 1 collides (R171, spec/20_memory.md R64). -/
def Drawing.plot (d : Drawing) (r c : Nat) : Drawing :=
  let row := Fin.ofNat 32 r
  let column := Fin.ofNat 64 c
  ⟨d.fb.flip row column, d.collision || d.fb.pixel row column⟩

/-- The first `k` columns of one sprite byte drawn at row `r` from column `c`, most significant bit leftmost (R171). -/
def Drawing.plotBits (d : Drawing) (r c : Nat) (b : Byte) : Nat → Drawing
  | 0 => d
  | col + 1 =>
    let d := d.plotBits r c b col
    if b.getLsbD (7 - col) then d.plot r (c + col) else d

/-- The first `k` rows of a sprite whose row `j` is the byte `sprite j`, drawn from row `r` and column `c` (R171). -/
def Drawing.plotRows (d : Drawing) (sprite : Nat → Byte) (r c : Nat) : Nat → Drawing
  | 0 => d
  | row + 1 => (d.plotRows sprite r c row).plotBits (r + row) c (sprite row) 8

/-- Row `j` of the sprite at I (R171): the byte at (I + j) mod 4096. -/
def State.spriteByte (s : State) (j : Nat) : Byte := s.memRead (s.dataAddress j)

/-- CLS (R170). -/
def execCls (s : State) : Answer := .next (s.setFb Framebuffer.blank).advancePc

/-- DRW Vx, Vy, n (R171): the coordinates are those before VF is written; VF ends as the collision flag, 0 when
`n` = 0. -/
def execDrw (x y : Reg) (n : Nibble) (s : State) : Answer :=
  let d := Drawing.plotRows ⟨s.fb, false⟩ s.spriteByte (s.spriteRow y) (s.spriteColumn x) n.toNat
  .next ((s.setFb d.fb).writeV flagReg (flagByte d.collision)).advancePc

end Sys2Proof.Machine
end

