-- ==== Sys2Proof/Machine/Flow.lean ====
section
/-! DEFINITION. Control transfer (spec/40_flow.md): RET, JP, CALL, the four register and immediate skips, JP_V0.
Targets are used as they stand, with no alignment check and no mask (R118). -/

namespace Sys2Proof.Machine

/-- RET (R110): with an empty stack, STACK_UNDERFLOW (R204); else pop into `pc`. -/
def execRet (s : State) : Answer :=
  if s.sp = 0 then .next (s.raiseFault .stackUnderflow s.pc (encode .ret))
  else .next (s.pop.setPc s.top)

/-- JP nnn (R111). -/
def execJp (nnn : Addr) (s : State) : Answer := .next (s.setPc (extendAddr nnn))

/-- CALL nnn (R112): with a full stack, STACK_OVERFLOW (R203); else push the address of the next instruction. -/
def execCall (nnn : Addr) (s : State) : Answer :=
  if s.sp.val = Config.stackDepth then .next (s.raiseFault .stackOverflow s.pc (encode (.call nnn)))
  else .next ((s.push (s.pc + 2)).setPc (extendAddr nnn))

/-- SE_IMM Vx, kk (R113). -/
def execSeImm (x : Reg) (kk : Byte) (s : State) : Answer := .next (s.skipIf (s.readV x == kk))

/-- SNE_IMM Vx, kk (R114). -/
def execSneImm (x : Reg) (kk : Byte) (s : State) : Answer := .next (s.skipIf (s.readV x != kk))

/-- SE_REG Vx, Vy (R115). -/
def execSeReg (x y : Reg) (s : State) : Answer := .next (s.skipIf (s.readV x == s.readV y))

/-- SNE_REG Vx, Vy (R116). -/
def execSneReg (x y : Reg) (s : State) : Answer := .next (s.skipIf (s.readV x != s.readV y))

/-- JP_V0 nnn (R117): the sum is at most 0x10FE and is kept whole. -/
def execJpV0 (nnn : Addr) (s : State) : Answer := .next (s.setPc (extendAddr nnn + extendByte (s.readV 0)))

end Sys2Proof.Machine
end

