-- ==== Sys2Proof/Machine/IndexMemory.lean ====
section
/-! DEFINITION. Index register and memory instructions (spec/42_index_memory.md). None writes VF as a flag; the
three that access memory leave I unchanged (R156). -/

namespace Sys2Proof.Machine

/-- LD_I nnn (R150). -/
def execLdI (nnn : Addr) (s : State) : Answer := .next (s.setI (extendAddr nnn)).advancePc

/-- ADD_I Vx (R151): modulo 65536, no flag. -/
def execAddI (x : Reg) (s : State) : Answer := .next (s.setI (s.i + extendByte (s.readV x))).advancePc

/-- LD_F Vx (R152): FONT_BASE + 5 * Vx, the whole byte. -/
def execLdF (x : Reg) (s : State) : Answer :=
  .next (s.setI (glyphAddress Config.fontBase.val (s.readV x))).advancePc

/-- LD_B Vx (R153). -/
def execLdB (x : Reg) (s : State) : Answer :=
  .next (s.memWriteList (s.dataAddress 0) (decimalDigits (s.readV x))).advancePc

/-- ST_REGS Vx (R154): x + 1 registers. -/
def execStRegs (x : Reg) (s : State) : Answer := .next (s.storeRegisters (x.toNat + 1)).advancePc

/-- LD_REGS Vx (R155): x + 1 registers. -/
def execLdRegs (x : Reg) (s : State) : Answer := .next (s.loadRegisters (x.toNat + 1)).advancePc

end Sys2Proof.Machine
end

