-- ==== Sys2Proof/Machine/KeysTimers.lean ====
section
/-! DEFINITION. Key and timer instructions (spec/44_keys_timers.md). What they see is what the host last wrote (R186). -/

namespace Sys2Proof.Machine

/-- SKP Vx (R180). -/
def execSkp (x : Reg) (s : State) : Answer := .next (s.skipIf (s.keyPressed (s.keyIndex x)))

/-- SKNP Vx (R181). -/
def execSknp (x : Reg) (s : State) : Answer := .next (s.skipIf (!s.keyPressed (s.keyIndex x)))

/-- LD_VX_DT Vx (R182). -/
def execLdVxDt (x : Reg) (s : State) : Answer := .next (s.writeV x s.dt).advancePc

/-- LD_VX_K Vx (R183): with no key pressed nothing changes, `pc` included, and the next step tries again. -/
def execLdVxK (x : Reg) (s : State) : Answer :=
  match s.firstPressed with
  | some k => .next (s.writeV x (k.setWidth 8)).advancePc
  | none => .next s

/-- LD_DT_VX Vx (R184). -/
def execLdDtVx (x : Reg) (s : State) : Answer := .next (s.setDt (s.readV x)).advancePc

/-- LD_ST_VX Vx (R185). -/
def execLdStVx (x : Reg) (s : State) : Answer := .next (s.setSt (s.readV x)).advancePc

end Sys2Proof.Machine
end

