-- ==== Sys2Proof/Machine/Step.lean ====
section
/-! DEFINITION. The step (spec/30_encoding.md R94), and the placing of one instruction word where it is fetched. -/

namespace Sys2Proof.Machine

/-- The step, the core's only move (R94): a halted core changes nothing (R206); else the word at `pc` is fetched and
decoded, an illegal word raises ILLEGAL_INSTRUCTION (R202), and an instruction runs. -/
def step (s : State) : Host.Outcome State Fault Refusal :=
  if s.halted then .next s
  else
    match decodeWord (s.fetch16 s.pc.toNat) with
    | .ok i => exec i s
    | .error _ => .next (s.raiseFault .illegalInstruction s.pc (s.fetch16 s.pc.toNat))

/-- `s` with one instruction word stored at `pc`, high byte first (R53), and the fault latch clear, since a halted
core fetches nothing (R206). It stands for the ROM load, by which a program comes to run (log entry 9). -/
def State.withFetchWord (s : State) (nbits w : Nat) : State :=
  let word := tableWord nbits w
  let s := s.memWriteList s.pc.toNat [highByte word, lowByte word]
  { s with fault := FaultLatch.clear }

end Sys2Proof.Machine
end

