-- ==== Sys2Proof/Machine/HostMoves.lean ====
section
/-! DEFINITION. The host's side (spec/60_exceptions.md R211 to R219, spec/70_reset_and_hazards.md R240 to R245): every
move of the host with its effect, when it is allowed, and the frame schedule. -/

namespace Sys2Proof.Machine

/-- Initialize (R240): every state item takes its reset value. The reseeded randomness source stays free: the draws
after it are fresh ones (log entry 3). -/
def State.initialize (s : State) : State := { State.reset with draws := s.draws }

/-- ROM load (R242, R217): at most 3584 bytes go to 0x200 and on; a longer sequence is refused. -/
def State.romLoad (s : State) (bytes : List Byte) : Answer :=
  if bytes.length ≤ Config.romMax then .next (s.memWriteList Config.romBase bytes) else .refused .romTooLarge

/-- The host's key write (R212): all sixteen flags at once. -/
def State.setKeys (s : State) (keys : Keys) : State := { s with key := keys }

/-- One tick of one timer (R211): minus 1, floored at 0. -/
def tickTimer (t : Byte) : Byte := if t = 0 then 0 else t - 1

/-- The timer tick (R211): both timers, independently, on a running or a halted core. -/
def State.timerTick (s : State) : State := { s with dt := tickTimer s.dt, st := tickTimer s.st }

/-- `sound_active` (R27, R214): the sound timer is not 0. -/
def State.soundActive (s : State) : Bool := s.st != 0

/-- What the debug read gives (R219). -/
structure DebugView where
  v : Vector Byte 16
  i : Word
  pc : Word
  sp : Fin 17
  stack : Vector Word 16
  dt : Byte
  st : Byte
  mem : Memory
  fault : FaultLatch
  deriving DecidableEq, Repr

/-- The debug read (R219): the register state, the stack, memory and the fault latch. -/
def State.debugView (s : State) : DebugView :=
  { v := s.v, i := s.i, pc := s.pc, sp := s.sp, stack := s.stack, dt := s.dt, st := s.st, mem := s.mem, fault := s.fault }

/-- End of run (R245, the spec's definition for claims): the core is running and the instruction at `pc` is a JP to
its own address. The core does not stop there. -/
def State.endOfRun (s : State) : Bool :=
  !s.halted && decide (s.pc.toNat ≤ 0x0FFF) && s.fetch16 s.pc.toNat == 0x1000#16 + s.pc

/-- The moves of the host (R216). -/
inductive HostMove where
  | init
  | romLoad (bytes : List Byte)
  | step
  | setKeys (keys : Keys)
  | timerTick
  | readFramebuffer
  | readSoundActive
  | readDebug
  deriving DecidableEq, Repr

/-- What a move gives back to the host. -/
inductive HostReply where
  | done
  | framebuffer (fb : Framebuffer)
  | soundActive (active : Bool)
  | debug (view : DebugView)
  deriving DecidableEq, Repr

/-- How far a run has come in the boot order (R243). -/
inductive Phase where
  /-- After initialize, before the ROM load. -/
  | awaitingRom
  /-- After a successful ROM load: steps are allowed. -/
  | running
  /-- After a refused ROM load: the run does not begin (R217). -/
  | loadFailed
  deriving DecidableEq, Repr

/-- The block and where its host stands; before the first initialize the state is unspecified (R240), so there is
none. -/
inductive Session where
  | off
  | on (phase : Phase) (core : State)
  deriving DecidableEq, Repr

/-- When the host may make a move (R216, R243): initialize at any time, ROM load once after it and before any step,
steps after a successful load, the others at any time after initialize. -/
def HostMove.allowed : HostMove → Session → Bool
  | .init, _ => true
  | _, .off => false
  | .romLoad _, .on p _ => p == .awaitingRom
  | .step, .on p _ => p == .running
  | _, .on _ _ => true

/-- The core that initialize leaves (R240): before the first initialize there is no earlier draw. -/
def Session.initialized : Session → State
  | .off => State.reset
  | .on _ s => s.initialize

/-- One move of the host (R216): the session after it and the reply. A ROM load that is too long is an error
reply (R217), not a stop of the session. -/
def Session.move (t : Session) (m : HostMove) : Host.Outcome (Session × Except Refusal HostReply) Fault Refusal :=
  if m.allowed t then
    match m, t with
    | .init, t => .next (.on .awaitingRom t.initialized, .ok .done)
    | _, .off => .refused .moveNotAllowed
    | .romLoad bytes, .on _ s =>
      match s.romLoad bytes with
      | .next s' => .next (.on .running s', .ok .done)
      | .fault f => .fault f
      | .refused r => .next (.on .loadFailed s, .error r)
    | .step, .on p s =>
      match Sys2Proof.Machine.step s with
      | .next s' => .next (.on p s', .ok .done)
      | .fault f => .fault f
      | .refused r => .refused r
    | .setKeys keys, .on p s => .next (.on p (s.setKeys keys), .ok .done)
    | .timerTick, .on p s => .next (.on p s.timerTick, .ok .done)
    | .readFramebuffer, .on p s => .next (.on p s, .ok (.framebuffer s.fb))
    | .readSoundActive, .on p s => .next (.on p s, .ok (.soundActive s.soundActive))
    | .readDebug, .on p s => .next (.on p s, .ok (.debug s.debugView))
  else .refused .moveNotAllowed

/-- A sequence of host moves, one after another (R6): the free host makes any (R244). -/
def Session.moves (t : Session) : List HostMove → Host.Outcome Session Fault Refusal
  | [] => .next t
  | m :: ms =>
    match t.move m with
    | .next (t', _) => t'.moves ms
    | .fault f => .fault f
    | .refused r => .refused r

/-- The parts of a frame (R244); the host's reads change nothing and are left to it. -/
inductive FramePart where
  | keyWrite
  | steps
  | tick
  deriving DecidableEq, Repr

/-- The framed host (R244): CYCLES_PER_FRAME and the order inside a frame, both left open by the spec. -/
structure FrameSchedule where
  cyclesPerFrame : Nat
  order : List FramePart
  deriving DecidableEq, Repr

/-- A frame holds one key write, a positive number of steps and one tick (R8, R244). -/
def FrameSchedule.wf (f : FrameSchedule) : Bool :=
  decide (0 < f.cyclesPerFrame) && decide (f.order.length = 3) && f.order.contains .keyWrite &&
    f.order.contains .steps && f.order.contains .tick

/-- The moves of one frame in which the keys are `keys` (R244). -/
def FrameSchedule.moves (f : FrameSchedule) (keys : Keys) : List HostMove :=
  f.order.flatMap fun
    | .keyWrite => [.setKeys keys]
    | .steps => List.replicate f.cyclesPerFrame .step
    | .tick => [.timerTick]

end Sys2Proof.Machine
end

