-- ==== Sys2Proof/Safety.lean ====
section
/-! DEFINITION. The terms claims use: the parts of the state a claim can look at, what it means that nothing but
certain parts changed, which instructions may write a part (spec/10_state.md R37), the invariant of the machine, and
a safe run. -/

namespace Sys2Proof.Machine

/-- A part of the state (spec/10_state.md), down to one register, one stack entry, one pixel, one key, one byte. -/
inductive Part where
  | reg (x : Reg)
  | index
  | pc
  | stackEntry (k : Nibble)
  | stackPointer
  | delayTimer
  | soundTimer
  | pixel (r : Fin 32) (c : Fin 64)
  | key (k : Nibble)
  | memByte (a : Addr)
  | faultCode
  | faultPc
  | faultInstr
  /-- The model's own counter of draws. -/
  | draws
  deriving DecidableEq, Repr

/-- The value of a part, as a number. -/
def State.observe (s : State) : Part → Nat
  | .reg x => (s.readV x).toNat
  | .index => s.i.toNat
  | .pc => s.pc.toNat
  | .stackEntry k => (s.stack[k.toNat]'k.isLt).toNat
  | .stackPointer => s.sp.val
  | .delayTimer => s.dt.toNat
  | .soundTimer => s.st.toNat
  | .pixel r c => (s.fb.pixel r c).toNat
  | .key k => (s.keyPressed k).toNat
  | .memByte a => (s.memRead a.toNat).toNat
  | .faultCode => s.fault.code.number.toNat
  | .faultPc => s.fault.pc.toNat
  | .faultInstr => s.fault.instr.toNat
  | .draws => s.draws

/-- From `s` to `t` no part changed but those `touched` names: every register, flag, stack entry, pixel, key, latch
field and EVERY byte of memory outside them reads as before. -/
def ChangesOnly (touched : Part → Prop) (s t : State) : Prop := ∀ p, ¬ touched p → t.observe p = s.observe p

/-- The byte `a` is one of the `count` bytes stored at I and on: byte k goes to (I + k) mod 4096 (R156, R52). -/
def StoredAt (s : State) (count : Nat) (a : Addr) : Prop := ∃ k < count, a.toNat = maskAddress (s.dataAddress k)

/-- The instructions that write a general register: the writers of Vx, and of VF as the flag (R21, R37). -/
def writesRegister (z : Reg) : Instr → Bool
  | .ldImm x _ | .addImm x _ | .ldReg x _ | .or x _ | .and x _ | .xor x _ | .rnd x _ | .ldVxDt x | .ldVxK x => z == x
  | .addReg x _ | .sub x _ | .shr x _ | .subn x _ | .shl x _ => z == x || z == flagReg
  | .drw _ _ _ => z == flagReg
  | .ldRegs x => decide (z.toNat ≤ x.toNat)
  | _ => false

/-- The instructions that write I (R37). -/
def writesIndex : Instr → Bool
  | .ldI _ | .addI _ | .ldF _ => true
  | _ => false

/-- The instructions that write the call stack's entries (R37). -/
def writesStack : Instr → Bool
  | .call _ => true
  | _ => false

/-- The instructions that move `SP`, which are also those that can fault, and so write the latch (R37, R208). -/
def callsOrReturns : Instr → Bool
  | .call _ | .ret => true
  | _ => false

/-- The instructions that write the framebuffer (R37). -/
def writesFramebuffer : Instr → Bool
  | .cls | .drw _ _ _ => true
  | _ => false

/-- The instructions that write memory (R37). -/
def writesMemory : Instr → Bool
  | .ldB _ | .stRegs _ => true
  | _ => false

/-- Whether an instruction may write a part of the state, by the list of writers of R37 (with the six side-effect
writers of VF, R21). Every instruction may write `pc`, and none writes a key. -/
def Part.writtenBy (p : Part) (i : Instr) : Bool :=
  match p with
  | .reg z => writesRegister z i
  | .index => writesIndex i
  | .pc => true
  | .stackEntry _ => writesStack i
  | .stackPointer => callsOrReturns i
  | .delayTimer => match i with | .ldDtVx _ => true | _ => false
  | .soundTimer => match i with | .ldStVx _ => true | _ => false
  | .pixel _ _ => writesFramebuffer i
  | .key _ => false
  | .memByte _ => writesMemory i
  | .faultCode | .faultPc | .faultInstr => callsOrReturns i
  | .draws => match i with | .rnd _ _ => true | _ => false

/-- The invariant of the machine. Memory is in canonical form. While the core runs the latch is clear (R32). While
it is halted the latch points at the instruction that faulted, which is still the word at `pc` (R205), and that word
and `SP` are what that fault is raised for (R201). -/
structure State.Inv (s : State) : Prop where
  memory : s.mem.wf = true
  running : s.fault.code = .running → s.fault = FaultLatch.clear
  halted : s.fault.code ≠ .running → s.fault.pc = s.pc ∧ s.fault.instr = s.fetch16 s.pc.toNat
  illegal : s.fault.code = .illegalInstruction → decodeWord s.fault.instr = .error (.unrecognized s.fault.instr)
  overflow : s.fault.code = .stackOverflow → s.sp.val = 16 ∧ ∃ nnn, s.fault.instr = encode (.call nnn)
  underflow : s.fault.code = .stackUnderflow → s.sp.val = 0 ∧ s.fault.instr = 0x00EE#16

/-- A run of `n` steps is safe when every one of them answers a next state and no fault has halted the core. -/
def SafeRun (s : State) (n : Nat) : Prop := ∀ k ≤ n, ∃ t, core.run k s = .next t ∧ t.halted = false

/-- Whether DRW Vx, Vy, n puts a sprite bit of 1 on the pixel at row `r` and column `c` (spec/43_display.md R171),
said pixel by pixel, without the rule's loop: the pixel lies `dr` rows below and `dc` columns right of the start
coordinate, both counted around the edges, and the sprite has a 1 there. -/
def spriteBitAt (s : State) (x y : Reg) (n : Nibble) (r : Fin 32) (c : Fin 64) : Bool :=
  let dr := (r.val + 32 - (s.readV y).toNat % 32) % 32
  let dc := (c.val + 64 - (s.readV x).toNat % 64) % 64
  decide (dr < n.toNat) && decide (dc < 8) && (s.memRead (s.i.toNat + dr)).getLsbD (7 - dc)

/-- The instructions after which `pc` has advanced by exactly 2 (spec/30_encoding.md R95): all but the jumps, the
call, the return, the six skips and the key wait. -/
def alwaysAdvances : Instr → Bool
  | .ret | .jp _ | .call _ | .jpV0 _ => false
  | .seImm _ _ | .sneImm _ _ | .seReg _ _ | .sneReg _ _ | .skp _ | .sknp _ => false
  | .ldVxK _ => false
  | _ => true

/-- The six skips (R95). -/
def isSkip : Instr → Bool
  | .seImm _ _ | .sneImm _ _ | .seReg _ _ | .sneReg _ _ | .skp _ | .sknp _ => true
  | _ => false

/-- The word numbered `n` is the word of the instruction `i`: the decoder reads it so, and the encoder writes it. -/
def IsWord (n : Nat) (i : Instr) : Prop := decodeWord (BitVec.ofNat 16 n) = .ok i ∧ (encode i).toNat = n

/-- Two 16-bit values that address the same byte of memory (R52). -/
def SameAddress (a b : Word) : Prop := a.toNat % 4096 = b.toNat % 4096

/-- Two states that a program cannot tell apart (spec/10_state.md R22, R23): equal but for bits 15:12 of I, of `pc`,
of the return addresses on the stack, and of the `pc` a fault recorded. -/
structure SameToPrograms (s t : State) : Prop where
  v : s.v = t.v
  i : SameAddress s.i t.i
  pc : SameAddress s.pc t.pc
  stack : ∀ k : Nibble, SameAddress (s.stack[k.toNat]'k.isLt) (t.stack[k.toNat]'k.isLt)
  sp : s.sp = t.sp
  dt : s.dt = t.dt
  st : s.st = t.st
  fb : s.fb = t.fb
  key : s.key = t.key
  mem : s.mem = t.mem
  faultCode : s.fault.code = t.fault.code
  faultPc : SameAddress s.fault.pc t.fault.pc
  faultInstr : s.fault.instr = t.fault.instr
  draws : s.draws = t.draws

/-- The invariant of a session: the core's, and a core is halted only after its ROM is loaded (R243). -/
def Session.Inv : Session → Prop
  | .off => True
  | .on p s => s.Inv ∧ (p ≠ .running → s.halted = false)

end Sys2Proof.Machine
end

