-- ==== Sys2Proof/WellFormed.lean ====
section
/-! DEFINITION. Well-formedness. A term of `Instr` needs no check: its fields have exactly the widths of R81, and
every value of every field is legal (spec/30_encoding.md R83). What can be ill formed is an instruction WORD: the
check below holds of a word exactly when it matches a row of the opcode map, read as masks and patterns of bits
(spec/opcode_table.json), a second statement of R84 to R89 beside the decoder's. -/

namespace Sys2Proof

/-- A row of the opcode map: a word belongs to the row when its bits under `mask` are those of `pattern`. -/
structure OpcodeRow where
  mask : Word
  pattern : Word
  deriving DecidableEq, Repr

/-- Whether the word `w` belongs to the row. -/
def OpcodeRow.covers (r : OpcodeRow) (w : Word) : Bool := w &&& r.mask == r.pattern

/-- Family 0x0, all sixteen bits fixed (R85): CLS, RET. -/
def opcodeRowsFixed : List OpcodeRow := [⟨0xFFFF, 0x00E0⟩, ⟨0xFFFF, 0x00EE⟩]

/-- The families that the top nibble alone selects (R84): JP, CALL, SE_IMM, SNE_IMM, LD_IMM, ADD_IMM, LD_I, JP_V0,
RND, DRW. -/
def opcodeRowsFamily : List OpcodeRow :=
  [⟨0xF000, 0x1000⟩, ⟨0xF000, 0x2000⟩, ⟨0xF000, 0x3000⟩, ⟨0xF000, 0x4000⟩, ⟨0xF000, 0x6000⟩, ⟨0xF000, 0x7000⟩,
   ⟨0xF000, 0xA000⟩, ⟨0xF000, 0xB000⟩, ⟨0xF000, 0xC000⟩, ⟨0xF000, 0xD000⟩]

/-- The rows selected by the top and the low nibble (R86, R89): SE_REG, the nine ALU instructions, SNE_REG. -/
def opcodeRowsNibble : List OpcodeRow :=
  [⟨0xF00F, 0x5000⟩, ⟨0xF00F, 0x8000⟩, ⟨0xF00F, 0x8001⟩, ⟨0xF00F, 0x8002⟩, ⟨0xF00F, 0x8003⟩, ⟨0xF00F, 0x8004⟩,
   ⟨0xF00F, 0x8005⟩, ⟨0xF00F, 0x8006⟩, ⟨0xF00F, 0x8007⟩, ⟨0xF00F, 0x800E⟩, ⟨0xF00F, 0x9000⟩]

/-- The rows selected by the top nibble and the low byte (R87, R88): SKP, SKNP and the nine of family 0xF. -/
def opcodeRowsByte : List OpcodeRow :=
  [⟨0xF0FF, 0xE09E⟩, ⟨0xF0FF, 0xE0A1⟩, ⟨0xF0FF, 0xF007⟩, ⟨0xF0FF, 0xF00A⟩, ⟨0xF0FF, 0xF015⟩, ⟨0xF0FF, 0xF018⟩,
   ⟨0xF0FF, 0xF01E⟩, ⟨0xF0FF, 0xF029⟩, ⟨0xF0FF, 0xF033⟩, ⟨0xF0FF, 0xF055⟩, ⟨0xF0FF, 0xF065⟩]

/-- The opcode map, 34 rows. -/
def opcodeRows : List OpcodeRow := opcodeRowsFixed ++ opcodeRowsFamily ++ opcodeRowsNibble ++ opcodeRowsByte

/-- A word is well formed when some row of the opcode map covers it; every other word is illegal (R90). -/
def wellFormedWord (w : Word) : Bool := opcodeRows.any fun r => r.covers w

end Sys2Proof
end

