-- ==== Sys2Proof/Certificates/Slice0/Obligations.lean ====
section
/-! DEFINITION. The statements about the model, each from the numbered rules of spec/ that its docstring names. Values
are said as numbers, by the spec's own arithmetic, and frames by `ChangesOnly`: every part of the state that a
statement does not name, every byte of memory among them, reads after the instruction as it read before. -/

open Sys2Proof Sys2Proof.Machine

/-! ### Reset and the step -/

/-- R35: every piece of state has its reset value. -/
def Obligations.ResetValues : Prop :=
  (∀ x, State.reset.readV x = 0) ∧ State.reset.i = 0 ∧ State.reset.pc.toNat = 0x0200 ∧ State.reset.sp.val = 0 ∧
  (∀ k : Nibble, State.reset.observe (.stackEntry k) = 0) ∧ State.reset.dt = 0 ∧ State.reset.st = 0 ∧
  State.reset.soundActive = false ∧ (∀ r c, State.reset.fb.pixel r c = false) ∧
  (∀ k, State.reset.keyPressed k = false) ∧
  (∀ j : Fin 80, State.reset.memRead (Config.fontBase.val + j.val) = Config.fontTable j) ∧
  (∀ a : Addr, (a.toNat < Config.fontBase.val ∨ Config.fontBase.val + 80 ≤ a.toNat) →
    State.reset.memRead a.toNat = 0) ∧
  State.reset.fault.code.number = 0 ∧ State.reset.fault.pc = 0 ∧ State.reset.fault.instr = 0

/-- The invariant holds at reset (derived from R32, R35). -/
def Obligations.ResetMeetsInvariant : Prop := State.reset.Inv

/-- The headline invariant (derived from R32, R201, R205, R206): every step keeps it. -/
def Obligations.StepKeepsInvariant : Prop := ∀ s t, s.Inv → step s = .next t → t.Inv

/-- R53: the fetch is big-endian, and each of its two addresses is masked. -/
def Obligations.FetchIsBigEndian : Prop :=
  ∀ (s : State) (a : Nat),
    (s.fetch16 a).toNat = 256 * (s.memRead (a % 4096)).toNat + (s.memRead ((a + 1) % 4096)).toNat

/-- R94: the step, case by case. On a halted core nothing changes; on a running core the word at `pc` is fetched and
decoded, and the step is the execution of the instruction it decodes to, with nothing around it, or the illegal-word
fault that records `pc` and the word. -/
def Obligations.StepRunsTheDecodedInstruction : Prop :=
  (∀ s : State, s.halted = true → step s = .next s) ∧
  (∀ s i, s.halted = false → decodeWord (s.fetch16 s.pc.toNat) = .ok i → step s = exec i s) ∧
  (∀ s e, s.halted = false → decodeWord (s.fetch16 s.pc.toNat) = .error e →
    step s = .next { s with fault := ⟨.illegalInstruction, s.pc, s.fetch16 s.pc.toNat⟩ })

/-- R202: on a running core a word that is no instruction raises ILLEGAL_INSTRUCTION and changes nothing else. -/
def Obligations.IllegalWordHalts : Prop :=
  ∀ s e, s.halted = false → decodeWord (s.fetch16 s.pc.toNat) = .error e →
    ∃ t, step s = .next t ∧ t.fault.code = .illegalInstruction ∧ t.fault.pc = s.pc ∧
      t.fault.instr = s.fetch16 s.pc.toNat ∧ t.halted = true ∧
      ChangesOnly (fun p => p = .faultCode ∨ p = .faultPc ∨ p = .faultInstr) s t

/-- R206: a step on a halted core changes nothing, the host's other moves still work on it, and of all moves only
initialize makes it run again. -/
def Obligations.HaltedCoreStaysHalted : Prop :=
  ∀ s : State, s.halted = true →
    step s = .next s ∧ s.timerTick.fault = s.fault ∧ s.timerTick.dt.toNat = s.dt.toNat - 1 ∧
    s.timerTick.st.toNat = s.st.toNat - 1 ∧
    (∀ keys, (s.setKeys keys).fault = s.fault ∧ (s.setKeys keys).key = keys) ∧
    (∀ p, (Session.on p s).move .readFramebuffer = .next (.on p s, .ok (.framebuffer s.fb)) ∧
      (Session.on p s).move .readSoundActive = .next (.on p s, .ok (.soundActive s.soundActive)) ∧
      (Session.on p s).move .readDebug = .next (.on p s, .ok (.debug s.debugView))) ∧
    ∀ p m q t r, (Session.on p s).move m = .next (.on q t, r) → t.halted = false → m = .init

/-- Halting is for good (derived from R206, R207): a run of any number of steps leaves a halted core as it is. -/
def Obligations.HaltedRunsStay : Prop := ∀ n (s : State), s.halted = true → core.run n s = .next s

/-- Derived from R206: a run that ends on a running core has met no fault on the way. -/
def Obligations.RunEndingUnhaltedWasSafe : Prop :=
  ∀ n s t, core.run n s = .next t → t.halted = false → SafeRun s n

/-- Derived from R215, R261: every step and every handler answers a next state; nothing stops the machine otherwise. -/
def Obligations.EveryStepAnswersNext : Prop :=
  (∀ s, ∃ t, step s = .next t) ∧ ∀ i s, ∃ t, exec i s = .next t

/-- Derived from R201, R208: the three causes of a fault are the only ones, they exclude each other, and each always
faults. -/
def Obligations.FaultCauses : Prop :=
  ∀ s t, s.halted = false → step s = .next t →
    (t.fault.code = .illegalInstruction ↔ ∃ e, decodeWord (s.fetch16 s.pc.toNat) = .error e) ∧
    (t.fault.code = .stackOverflow ↔
      (∃ nnn, decodeWord (s.fetch16 s.pc.toNat) = .ok (.call nnn)) ∧ s.sp.val = 16) ∧
    (t.fault.code = .stackUnderflow ↔ decodeWord (s.fetch16 s.pc.toNat) = .ok .ret ∧ s.sp.val = 0)

/-- Derived from R205: faults are precise. The whole effect of a faulting step is the latch, which records the `pc` and the word
of the faulting instruction. -/
def Obligations.FaultsArePrecise : Prop :=
  ∀ s t, s.halted = false → step s = .next t → t.halted = true →
    t.fault.pc = s.pc ∧ t.fault.instr = s.fetch16 s.pc.toNat ∧
    ChangesOnly (fun p => p = .faultCode ∨ p = .faultPc ∨ p = .faultInstr) s t

/-- Derived from R201: the numbers of the fault codes. -/
def Obligations.FaultCodeNumbers : Prop :=
  FaultCode.running.number.toNat = 0 ∧ FaultCode.illegalInstruction.number.toNat = 1 ∧
  FaultCode.stackOverflow.number.toNat = 2 ∧ FaultCode.stackUnderflow.number.toNat = 3

/-! ### Encoding -/

/-- Derived from R96: decoding gives back every encoded instruction, with every operand at every value. -/
def Obligations.DecodeOfEncode : Prop := ∀ i, decodeWord (encode i) = .ok i

/-- Derived from R96, the other direction: an instruction's word is the encoding of what it decodes to, no bit dropped. -/
def Obligations.EncodeOfDecode : Prop := ∀ w i, decodeWord w = .ok i → encode i = w

/-- Derived from R84 to R90: the decoder accepts exactly the words that a row of the opcode map covers. -/
def Obligations.DecoderFollowsTheOpcodeMap : Prop :=
  ∀ w, (∃ i, decodeWord w = .ok i) ↔ wellFormedWord w = true

/-- Derived from R90: no two patterns of the opcode map overlap. -/
def Obligations.OpcodeRowsDoNotOverlap : Prop :=
  ∀ (w : Word) (j k : Fin 34), (opcodeRows[j.val]?.map fun r => r.covers w) = some true →
    (opcodeRows[k.val]?.map fun r => r.covers w) = some true → j = k

/-- Derived from R90: of the 65536 words exactly 43954 are instructions, and the other 21582 are illegal. -/
def Obligations.LegalWordCount : Prop :=
  Nat.card { w : Word // ∃ i, decodeWord w = .ok i } = 43954 ∧
  Nat.card { w : Word // ∃ e, decodeWord w = .error e } = 21582

/-- A few words of the spec, written out, decode to what they stand for (R130, R131, R170 and the vectors of
spec/95_test_vectors.md). -/
def Obligations.SampleWordsDecode : Prop :=
  decodeWord 0x6A02#16 = .ok (.ldImm 0xA 0x02) ∧ decodeWord 0x7A05#16 = .ok (.addImm 0xA 0x05) ∧
  decodeWord 0x00E0#16 = .ok .cls ∧ decodeWord 0x220A#16 = .ok (.call 0x20A) ∧
  decodeWord 0x8124#16 = .ok (.addReg 1 2) ∧ decodeWord 0xA300#16 = .ok (.ldI 0x300) ∧
  decodeWord 0xD125#16 = .ok (.drw 1 2 5) ∧ decodeWord 0xE39E#16 = .ok (.skp 3) ∧
  decodeWord 0xF265#16 = .ok (.ldRegs 2) ∧ decodeWord 0x5341#16 = .error (.unrecognized 0x5341#16)

/-! ### Control transfer -/

/-- R110, R204: RET pops the top return address into `pc`; with an empty stack it faults and changes nothing else. -/
def Obligations.RetPopsOrUnderflows : Prop :=
  IsWord 0x00EE .ret ∧
  (∀ s : State, 0 < s.sp.val → ∃ t, exec .ret s = .next t ∧ t.sp.val = s.sp.val - 1 ∧
    t.observe .pc = s.observe (.stackEntry (BitVec.ofNat 4 (s.sp.val - 1))) ∧
    ChangesOnly (fun p => p = .pc ∨ p = .stackPointer) s t) ∧
  (∀ s : State, s.sp.val = 0 → ∃ t, exec .ret s = .next t ∧ t.fault = ⟨.stackUnderflow, s.pc, 0x00EE#16⟩ ∧
    ChangesOnly (fun p => p = .faultCode ∨ p = .faultPc ∨ p = .faultInstr) s t)

/-- R111, R117: JP goes to `nnn`, JP_V0 to `nnn` plus V0, neither masked nor aligned. -/
def Obligations.JumpsSetPc : Prop :=
  (∀ nnn s, IsWord (0x1000 + nnn.toNat) (.jp nnn) ∧
    ∃ t, exec (.jp nnn) s = .next t ∧ t.pc.toNat = nnn.toNat ∧ ChangesOnly (fun p => p = .pc) s t) ∧
  (∀ nnn s, IsWord (0xB000 + nnn.toNat) (.jpV0 nnn) ∧
    ∃ t, exec (.jpV0 nnn) s = .next t ∧ t.pc.toNat = nnn.toNat + (s.readV 0).toNat ∧
    ChangesOnly (fun p => p = .pc) s t)

/-- R112, R203: CALL pushes the address of the next instruction and jumps; with a full stack it faults and changes
nothing else. -/
def Obligations.CallPushesOrOverflows : Prop :=
  (∀ nnn : Addr, IsWord (0x2000 + nnn.toNat) (.call nnn)) ∧
  (∀ nnn (s : State), s.sp.val < 16 → ∃ t, exec (.call nnn) s = .next t ∧ t.sp.val = s.sp.val + 1 ∧
    t.observe (.stackEntry (BitVec.ofNat 4 s.sp.val)) = (s.pc.toNat + 2) % 65536 ∧ t.pc.toNat = nnn.toNat ∧
    ChangesOnly (fun p => p = .pc ∨ p = .stackPointer ∨ p = .stackEntry (BitVec.ofNat 4 s.sp.val)) s t) ∧
  (∀ nnn (s : State), s.sp.val = 16 → ∃ t, exec (.call nnn) s = .next t ∧ t.fault.code = .stackOverflow ∧
    t.fault.pc = s.pc ∧ t.fault.instr.toNat = 0x2000 + nnn.toNat ∧
    ChangesOnly (fun p => p = .faultCode ∨ p = .faultPc ∨ p = .faultInstr) s t)

/-- Derived from R110, R112 (the source's call and return round trip): a RET undoes a CALL but for the stale entry. -/
def Obligations.CallThenRetReturns : Prop :=
  ∀ nnn (s : State), s.sp.val < 16 → ∃ t u, exec (.call nnn) s = .next t ∧ exec .ret t = .next u ∧
    u.pc.toNat = (s.pc.toNat + 2) % 65536 ∧ u.sp = s.sp ∧
    ChangesOnly (fun p => p = .pc ∨ p = .stackEntry (BitVec.ofNat 4 s.sp.val)) s u

/-- R113, R114: the skips against an immediate. -/
def Obligations.SkipsOnImmediate : Prop :=
  (∀ x kk s, IsWord (0x3000 + 0x100 * x.toNat + kk.toNat) (.seImm x kk) ∧
    ∃ t, exec (.seImm x kk) s = .next t ∧
    t.pc.toNat = (s.pc.toNat + (if (s.readV x).toNat = kk.toNat then 4 else 2)) % 65536 ∧
    ChangesOnly (fun p => p = .pc) s t) ∧
  (∀ x kk s, IsWord (0x4000 + 0x100 * x.toNat + kk.toNat) (.sneImm x kk) ∧
    ∃ t, exec (.sneImm x kk) s = .next t ∧
    t.pc.toNat = (s.pc.toNat + (if (s.readV x).toNat = kk.toNat then 2 else 4)) % 65536 ∧
    ChangesOnly (fun p => p = .pc) s t)

/-- R115, R116: the skips on two registers. -/
def Obligations.SkipsOnRegisters : Prop :=
  (∀ x y s, IsWord (0x5000 + 0x100 * x.toNat + 0x10 * y.toNat) (.seReg x y) ∧
    ∃ t, exec (.seReg x y) s = .next t ∧
    t.pc.toNat = (s.pc.toNat + (if (s.readV x).toNat = (s.readV y).toNat then 4 else 2)) % 65536 ∧
    ChangesOnly (fun p => p = .pc) s t) ∧
  (∀ x y s, IsWord (0x9000 + 0x100 * x.toNat + 0x10 * y.toNat) (.sneReg x y) ∧
    ∃ t, exec (.sneReg x y) s = .next t ∧
    t.pc.toNat = (s.pc.toNat + (if (s.readV x).toNat = (s.readV y).toNat then 2 else 4)) % 65536 ∧
    ChangesOnly (fun p => p = .pc) s t)

/-- Derived from R95: the program-counter rule common to all instructions. A handler that does not fault adds 2 to
`pc` unless it is a jump, call, return, skip or key wait; a skip adds 2 or 4; a fault leaves `pc` where it was. -/
def Obligations.ProgramCounterRule : Prop :=
  ∀ i s t, exec i s = .next t →
    (alwaysAdvances i = true → t.pc.toNat = (s.pc.toNat + 2) % 65536) ∧
    (isSkip i = true →
      t.pc.toNat = (s.pc.toNat + 2) % 65536 ∨ t.pc.toNat = (s.pc.toNat + 4) % 65536) ∧
    (t.fault ≠ s.fault → t.pc = s.pc)

/-! ### Arithmetic and logic -/

/-- R130, R131, R132: LD_IMM, ADD_IMM and LD_REG write Vx, VF too when x is F, and no flag. -/
def Obligations.LoadsAndAddImmediate : Prop :=
  (∀ x kk s, IsWord (0x6000 + 0x100 * x.toNat + kk.toNat) (.ldImm x kk) ∧
    ∃ t, exec (.ldImm x kk) s = .next t ∧ t.readV x = kk ∧ t.pc.toNat = (s.pc.toNat + 2) % 65536 ∧
    ChangesOnly (fun p => p = .reg x ∨ p = .pc) s t) ∧
  (∀ x kk s, IsWord (0x7000 + 0x100 * x.toNat + kk.toNat) (.addImm x kk) ∧
    ∃ t, exec (.addImm x kk) s = .next t ∧
    (t.readV x).toNat = ((s.readV x).toNat + kk.toNat) % 256 ∧ t.pc.toNat = (s.pc.toNat + 2) % 65536 ∧
    ChangesOnly (fun p => p = .reg x ∨ p = .pc) s t) ∧
  (∀ x y s, IsWord (0x8000 + 0x100 * x.toNat + 0x10 * y.toNat) (.ldReg x y) ∧
    ∃ t, exec (.ldReg x y) s = .next t ∧ t.readV x = s.readV y ∧ t.pc.toNat = (s.pc.toNat + 2) % 65536 ∧
    ChangesOnly (fun p => p = .reg x ∨ p = .pc) s t)

/-- R133, R134, R135: OR, AND and XOR, bit by bit; VF is not written unless it is Vx. -/
def Obligations.LogicOperations : Prop :=
  (∀ x y s, IsWord (0x8001 + 0x100 * x.toNat + 0x10 * y.toNat) (.or x y) ∧
    ∃ t, exec (.or x y) s = .next t ∧
    (∀ j < 8, (t.readV x).getLsbD j = ((s.readV x).getLsbD j || (s.readV y).getLsbD j)) ∧
    t.pc.toNat = (s.pc.toNat + 2) % 65536 ∧ ChangesOnly (fun p => p = .reg x ∨ p = .pc) s t) ∧
  (∀ x y s, IsWord (0x8002 + 0x100 * x.toNat + 0x10 * y.toNat) (.and x y) ∧
    ∃ t, exec (.and x y) s = .next t ∧
    (∀ j < 8, (t.readV x).getLsbD j = ((s.readV x).getLsbD j && (s.readV y).getLsbD j)) ∧
    t.pc.toNat = (s.pc.toNat + 2) % 65536 ∧ ChangesOnly (fun p => p = .reg x ∨ p = .pc) s t) ∧
  (∀ x y s, IsWord (0x8003 + 0x100 * x.toNat + 0x10 * y.toNat) (.xor x y) ∧
    ∃ t, exec (.xor x y) s = .next t ∧
    (∀ j < 8, (t.readV x).getLsbD j = ((s.readV x).getLsbD j != (s.readV y).getLsbD j)) ∧
    t.pc.toNat = (s.pc.toNat + 2) % 65536 ∧ ChangesOnly (fun p => p = .reg x ∨ p = .pc) s t)

/-- R136: ADD_REG; VF is the carry, and the sum is lost when x is F. -/
def Obligations.AddWithCarryOut : Prop :=
  ∀ x y s, IsWord (0x8004 + 0x100 * x.toNat + 0x10 * y.toNat) (.addReg x y) ∧
    ∃ t, exec (.addReg x y) s = .next t ∧
    (t.readV 0xF#4).toNat = (if (s.readV x).toNat + (s.readV y).toNat > 255 then 1 else 0) ∧
    (x ≠ 0xF#4 → (t.readV x).toNat = ((s.readV x).toNat + (s.readV y).toNat) % 256) ∧
    t.pc.toNat = (s.pc.toNat + 2) % 65536 ∧ ChangesOnly (fun p => p = .reg x ∨ p = .reg 0xF#4 ∨ p = .pc) s t

/-- R137, R139: SUB and SUBN; VF is 1 when there is no borrow, and the difference is lost when x is F. -/
def Obligations.SubtractionsWithNotBorrowOut : Prop :=
  (∀ x y s, IsWord (0x8005 + 0x100 * x.toNat + 0x10 * y.toNat) (.sub x y) ∧
    ∃ t, exec (.sub x y) s = .next t ∧
    (t.readV 0xF#4).toNat = (if (s.readV x).toNat ≥ (s.readV y).toNat then 1 else 0) ∧
    (x ≠ 0xF#4 → (t.readV x).toNat = ((s.readV x).toNat + 256 - (s.readV y).toNat) % 256) ∧
    t.pc.toNat = (s.pc.toNat + 2) % 65536 ∧
    ChangesOnly (fun p => p = .reg x ∨ p = .reg 0xF#4 ∨ p = .pc) s t) ∧
  (∀ x y s, IsWord (0x8007 + 0x100 * x.toNat + 0x10 * y.toNat) (.subn x y) ∧
    ∃ t, exec (.subn x y) s = .next t ∧
    (t.readV 0xF#4).toNat = (if (s.readV y).toNat ≥ (s.readV x).toNat then 1 else 0) ∧
    (x ≠ 0xF#4 → (t.readV x).toNat = ((s.readV y).toNat + 256 - (s.readV x).toNat) % 256) ∧
    t.pc.toNat = (s.pc.toNat + 2) % 65536 ∧
    ChangesOnly (fun p => p = .reg x ∨ p = .reg 0xF#4 ∨ p = .pc) s t)

/-- R138, R140: SHR and SHL shift Vx in place, whatever y is; VF is the bit shifted out. -/
def Obligations.ShiftsInPlace : Prop :=
  (∀ x y s, IsWord (0x8006 + 0x100 * x.toNat + 0x10 * y.toNat) (.shr x y) ∧
    ∃ t, exec (.shr x y) s = .next t ∧ (t.readV 0xF#4).toNat = (s.readV x).toNat % 2 ∧
    (x ≠ 0xF#4 → (t.readV x).toNat = (s.readV x).toNat / 2) ∧ t.pc.toNat = (s.pc.toNat + 2) % 65536 ∧
    ChangesOnly (fun p => p = .reg x ∨ p = .reg 0xF#4 ∨ p = .pc) s t) ∧
  (∀ x y s, IsWord (0x800E + 0x100 * x.toNat + 0x10 * y.toNat) (.shl x y) ∧
    ∃ t, exec (.shl x y) s = .next t ∧ (t.readV 0xF#4).toNat = (s.readV x).toNat / 128 ∧
    (x ≠ 0xF#4 → (t.readV x).toNat = (s.readV x).toNat * 2 % 256) ∧ t.pc.toNat = (s.pc.toNat + 2) % 65536 ∧
    ChangesOnly (fun p => p = .reg x ∨ p = .reg 0xF#4 ∨ p = .pc) s t)

/-- Derived from R31, R141: RND ANDs one draw with the immediate, so that every bit that is 0 in `kk` is 0 in Vx, and
with `kk` = 0xFF Vx is the draw. That the draw is the free value `Config.draw` at the counter `draws`, which goes up
by one, is the model's choice (log entry 3). -/
def Obligations.RandomByteIsMasked : Prop :=
  ∀ x kk s, IsWord (0xC000 + 0x100 * x.toNat + kk.toNat) (.rnd x kk) ∧
    ∃ t, exec (.rnd x kk) s = .next t ∧
    (∀ j < 8, (t.readV x).getLsbD j = ((Config.draw s.draws).getLsbD j && kk.getLsbD j)) ∧
    (kk = 0xFF → t.readV x = Config.draw s.draws) ∧ (kk = 0 → t.readV x = 0) ∧ t.draws = s.draws + 1 ∧
    t.pc.toNat = (s.pc.toNat + 2) % 65536 ∧ ChangesOnly (fun p => p = .reg x ∨ p = .pc ∨ p = .draws) s t

/-- Derived from R31: no instruction but RND can read the randomness source. The counter is the model's (log entry 3). -/
def Obligations.OnlyRndReadsTheDraws : Prop :=
  ∀ i (s t : State) n, (∀ x kk, i ≠ .rnd x kk) → exec i s = .next t →
    exec i { s with draws := n } = .next { t with draws := n }

/-! ### Index register and memory -/

/-- R150, R151: LD_I and ADD_I; I keeps 16 bits and no flag is written. -/
def Obligations.IndexLoadAndAdd : Prop :=
  (∀ nnn s, IsWord (0xA000 + nnn.toNat) (.ldI nnn) ∧
    ∃ t, exec (.ldI nnn) s = .next t ∧ t.i.toNat = nnn.toNat ∧ t.pc.toNat = (s.pc.toNat + 2) % 65536 ∧
    ChangesOnly (fun p => p = .index ∨ p = .pc) s t) ∧
  (∀ x s, IsWord (0xF01E + 0x100 * x.toNat) (.addI x) ∧
    ∃ t, exec (.addI x) s = .next t ∧ t.i.toNat = (s.i.toNat + (s.readV x).toNat) % 65536 ∧
    t.pc.toNat = (s.pc.toNat + 2) % 65536 ∧ ChangesOnly (fun p => p = .index ∨ p = .pc) s t)

/-- R152: LD_F points I at FONT_BASE + 5 * Vx, for every FONT_BASE the spec allows and every Vx. -/
def Obligations.FontGlyphAddress : Prop :=
  ∀ x s, IsWord (0xF029 + 0x100 * x.toNat) (.ldF x) ∧
    ∃ t, exec (.ldF x) s = .next t ∧ t.i.toNat = Config.fontBase.val + 5 * (s.readV x).toNat ∧
    t.i.toNat ≤ 0x6AB ∧ t.pc.toNat = (s.pc.toNat + 2) % 65536 ∧ ChangesOnly (fun p => p = .index ∨ p = .pc) s t

/-- R153: LD_B stores three decimal digits, hundreds first, at I, I + 1 and I + 2, each address masked. -/
def Obligations.DecimalDigitsStored : Prop :=
  ∀ x s, IsWord (0xF033 + 0x100 * x.toNat) (.ldB x) ∧ ∃ t, exec (.ldB x) s = .next t ∧
    (t.memRead s.i.toNat).toNat * 100 + (t.memRead (s.i.toNat + 1)).toNat * 10 + (t.memRead (s.i.toNat + 2)).toNat =
      (s.readV x).toNat ∧
    (t.memRead s.i.toNat).toNat ≤ 2 ∧ (t.memRead (s.i.toNat + 1)).toNat ≤ 9 ∧
    (t.memRead (s.i.toNat + 2)).toNat ≤ 9 ∧ t.pc.toNat = (s.pc.toNat + 2) % 65536 ∧
    ChangesOnly (fun p => p = .pc ∨ ∃ a, p = .memByte a ∧ StoredAt s 3 a) s t

/-- R154: ST_REGS stores V0 to Vx at I to I + x, each address masked, and leaves I and every other byte alone. -/
def Obligations.RegistersStored : Prop :=
  ∀ x s, IsWord (0xF055 + 0x100 * x.toNat) (.stRegs x) ∧ ∃ t, exec (.stRegs x) s = .next t ∧
    (∀ z : Reg, z.toNat ≤ x.toNat → t.memRead (s.i.toNat + z.toNat) = s.readV z) ∧
    t.pc.toNat = (s.pc.toNat + 2) % 65536 ∧
    ChangesOnly (fun p => p = .pc ∨ ∃ a, p = .memByte a ∧ StoredAt s (x.toNat + 1) a) s t

/-- R155: LD_REGS loads V0 to Vx from I to I + x, each address masked, and leaves I and memory alone. -/
def Obligations.RegistersLoaded : Prop :=
  ∀ x s, IsWord (0xF065 + 0x100 * x.toNat) (.ldRegs x) ∧ ∃ t, exec (.ldRegs x) s = .next t ∧
    (∀ z : Reg, z.toNat ≤ x.toNat → t.readV z = s.memRead (s.i.toNat + z.toNat)) ∧
    t.pc.toNat = (s.pc.toNat + 2) % 65536 ∧
    ChangesOnly (fun p => p = .pc ∨ ∃ z : Reg, p = .reg z ∧ z.toNat ≤ x.toNat) s t

/-- Derived from R154, R155: registers stored and loaded again from the same I, whatever the registers held in
between, are what they were. -/
def Obligations.StoreThenLoadRestoresRegisters : Prop :=
  ∀ x (s t u : State), exec (.stRegs x) s = .next t → u.mem = t.mem → u.i = s.i →
    ∃ w, exec (.ldRegs x) u = .next w ∧ ∀ z : Reg, z.toNat ≤ x.toNat → w.readV z = s.readV z

/-- Derived from R59, R62: a store is seen by the fetch of the very next step. Registers V0 and V1 stored where `pc`
goes next are the word fetched next. -/
def Obligations.StoreIsSeenByTheNextFetch : Prop :=
  ∀ x (s t : State), exec (.stRegs x) s = .next t → 1 ≤ x.toNat → SameAddress s.i (s.pc + 2) →
    (t.fetch16 t.pc.toNat).toNat = 256 * (s.readV 0).toNat + (s.readV 1).toNat

/-- Equal memories are equal data (derived from R52 and the model's canonical form, log entry 6): two memories in
canonical form that read the same at each of the 4096 addresses are the same list. -/
def Obligations.CanonicalMemoryIsUnique : Prop :=
  ∀ m m' : Memory, m.wf = true → m'.wf = true → (∀ a : Addr, m.read a.toNat = m'.read a.toNat) → m = m'

/-- Derived from R22, R23: a program cannot tell a 16-bit I or `pc` from one kept modulo 4096. Two states equal but
for the upper four bits of I, `pc` and the addresses copied from `pc` go to two such states. -/
def Obligations.UpperAddressBitsAreUnobservable : Prop :=
  ∀ s t s', SameToPrograms s t → step s = .next s' → ∃ t', step t = .next t' ∧ SameToPrograms s' t'

/-! ### Display -/

/-- R170: CLS sets every pixel to 0 and changes nothing else but `pc`. -/
def Obligations.ClearScreen : Prop :=
  ∀ s, IsWord 0x00E0 .cls ∧
    ∃ t, exec .cls s = .next t ∧ (∀ r c, t.fb.pixel r c = false) ∧ t.pc.toNat = (s.pc.toNat + 2) % 65536 ∧
    ChangesOnly (fun p => p = .pc ∨ ∃ r c, p = .pixel r c) s t

/-- R171: DRW, pixel by pixel. Every pixel is exclusive-ORed with the sprite bit that falls on it, counted around the
edges; VF is 1 when some sprite bit of 1 fell on a pixel that was 1, else 0, with n = 0 and with VF as a coordinate
too. -/
def Obligations.DrawSprite : Prop :=
  ∀ x y n s, IsWord (0xD000 + 0x100 * x.toNat + 0x10 * y.toNat + n.toNat) (.drw x y n) ∧
    ∃ t, exec (.drw x y n) s = .next t ∧
    (∀ r c, t.fb.pixel r c = (s.fb.pixel r c != spriteBitAt s x y n r c)) ∧
    ((∃ r c, spriteBitAt s x y n r c = true ∧ s.fb.pixel r c = true) → t.readV 0xF#4 = 1) ∧
    ((∀ r c, spriteBitAt s x y n r c = true → s.fb.pixel r c = false) → t.readV 0xF#4 = 0) ∧
    t.pc.toNat = (s.pc.toNat + 2) % 65536 ∧
    ChangesOnly (fun p => p = .reg 0xF#4 ∨ p = .pc ∨ ∃ r c, p = .pixel r c) s t

/-- R172: a sprite drawn twice at one place restores the framebuffer; the first draw collides where a sprite bit met a
set pixel, the second where it met a clear one; a sprite of zeros, or of no rows, draws nothing. -/
def Obligations.DrawingTwiceRestores : Prop :=
  (∀ x y n s t, exec (.drw x y n) s = .next t → t.readV x = s.readV x → t.readV y = s.readV y →
    ∃ u, exec (.drw x y n) t = .next u ∧ u.fb = s.fb ∧
      (t.readV 0xF#4 = 1 ↔ ∃ r c, spriteBitAt s x y n r c = true ∧ s.fb.pixel r c = true) ∧
      (u.readV 0xF#4 = 1 ↔ ∃ r c, spriteBitAt s x y n r c = true ∧ s.fb.pixel r c = false)) ∧
  (∀ x y n s t, exec (.drw x y n) s = .next t → (∀ j < n.toNat, s.memRead (s.i.toNat + j) = 0) →
    t.fb = s.fb ∧ t.readV 0xF#4 = 0)

/-! ### Keys and timers -/

/-- R180, R181: the key skips test the level of the key that the low four bits of Vx select. -/
def Obligations.SkipsOnKeys : Prop :=
  (∀ x s, IsWord (0xE09E + 0x100 * x.toNat) (.skp x) ∧ ∃ t, exec (.skp x) s = .next t ∧
    t.pc.toNat = (s.pc.toNat + (if s.keyPressed (BitVec.ofNat 4 ((s.readV x).toNat % 16)) then 4 else 2)) % 65536 ∧
    ChangesOnly (fun p => p = .pc) s t) ∧
  (∀ x s, IsWord (0xE0A1 + 0x100 * x.toNat) (.sknp x) ∧ ∃ t, exec (.sknp x) s = .next t ∧
    t.pc.toNat = (s.pc.toNat + (if s.keyPressed (BitVec.ofNat 4 ((s.readV x).toNat % 16)) then 2 else 4)) % 65536 ∧
    ChangesOnly (fun p => p = .pc) s t)

/-- R182, R184, R185: the timer instructions. -/
def Obligations.TimerInstructions : Prop :=
  (∀ x s, IsWord (0xF007 + 0x100 * x.toNat) (.ldVxDt x) ∧
    ∃ t, exec (.ldVxDt x) s = .next t ∧ t.readV x = s.dt ∧ t.pc.toNat = (s.pc.toNat + 2) % 65536 ∧
    ChangesOnly (fun p => p = .reg x ∨ p = .pc) s t) ∧
  (∀ x s, IsWord (0xF015 + 0x100 * x.toNat) (.ldDtVx x) ∧
    ∃ t, exec (.ldDtVx x) s = .next t ∧ t.dt = s.readV x ∧ t.pc.toNat = (s.pc.toNat + 2) % 65536 ∧
    ChangesOnly (fun p => p = .delayTimer ∨ p = .pc) s t) ∧
  (∀ x s, IsWord (0xF018 + 0x100 * x.toNat) (.ldStVx x) ∧
    ∃ t, exec (.ldStVx x) s = .next t ∧ t.st = s.readV x ∧ (t.soundActive = true ↔ s.readV x ≠ 0) ∧
    t.pc.toNat = (s.pc.toNat + 2) % 65536 ∧ ChangesOnly (fun p => p = .soundTimer ∨ p = .pc) s t)

/-- R183: LD_VX_K takes the least pressed key; with no key pressed nothing at all changes. -/
def Obligations.KeyWait : Prop :=
  (∀ x : Reg, IsWord (0xF00A + 0x100 * x.toNat) (.ldVxK x)) ∧
  (∀ x k (s : State), s.keyPressed k = true → (∀ j, j < k → s.keyPressed j = false) →
    ∃ t, exec (.ldVxK x) s = .next t ∧ (t.readV x).toNat = k.toNat ∧ t.pc.toNat = (s.pc.toNat + 2) % 65536 ∧
      ChangesOnly (fun p => p = .reg x ∨ p = .pc) s t) ∧
  (∀ x (s : State), (∀ k, s.keyPressed k = false) → exec (.ldVxK x) s = .next s)

/-- Derived from R29, R186: the key vector reaches a program through SKP, SKNP and LD_VX_K only. -/
def Obligations.OnlyKeyInstructionsReadTheKeys : Prop :=
  ∀ i (s t : State) keys, (∀ x, i ≠ .skp x ∧ i ≠ .sknp x ∧ i ≠ .ldVxK x) → exec i s = .next t →
    exec i (s.setKeys keys) = .next (t.setKeys keys)

/-- Derived from R27: no instruction reads the sound timer. Two states that differ in ST only stay so, or become equal. -/
def Obligations.NoInstructionReadsTheSoundTimer : Prop :=
  ∀ i (s t : State) b, exec i s = .next t →
    ∃ t', exec i (s.setSt b) = .next t' ∧ t'.setSt t.st = t ∧ (t'.st = t.st ∨ t'.st = b)

/-! ### Who writes what, and the host -/

/-- Derived from R37: every writer of every piece of state. What a running core's step changes, its instruction may write by R37, or
the step is an illegal word's fault; and each move of the host writes only its own items. -/
def Obligations.WritersOfState : Prop :=
  (∀ i s t p, exec i s = .next t → t.observe p ≠ s.observe p → p.writtenBy i = true) ∧
  (∀ s t e, step s = .next t → decodeWord (s.fetch16 s.pc.toNat) = .error e →
    ChangesOnly (fun p => p = .faultCode ∨ p = .faultPc ∨ p = .faultInstr) s t) ∧
  (∀ (s : State) keys, ChangesOnly (fun p => ∃ k, p = .key k) s (s.setKeys keys)) ∧
  (∀ s : State, ChangesOnly (fun p => p = .delayTimer ∨ p = .soundTimer) s s.timerTick) ∧
  (∀ (s t : State) bytes, s.romLoad bytes = .next t → ChangesOnly (fun p => ∃ a, p = .memByte a) s t)

/-- R211: the timer tick takes 1 from each timer that is not 0, independently, and changes nothing else. -/
def Obligations.TimerTickFloorsAtZero : Prop :=
  ∀ s : State, s.timerTick.dt.toNat = s.dt.toNat - 1 ∧ s.timerTick.st.toNat = s.st.toNat - 1 ∧
    ChangesOnly (fun p => p = .delayTimer ∨ p = .soundTimer) s s.timerTick

/-- R212: the key write replaces all sixteen flags and changes nothing else. -/
def Obligations.KeyWriteReplacesAll : Prop :=
  ∀ (s : State) (keys : Keys),
    (∀ k : Nibble, (s.setKeys keys).keyPressed k = keys[k.toNat]'k.isLt) ∧
    ChangesOnly (fun p => ∃ k, p = .key k) s (s.setKeys keys)

/-- R242, R217: a ROM of at most 3584 bytes is copied to 0x200 and on and nothing else changes; a longer one is refused
with ROM_TOO_LARGE, changes nothing, and no step may follow. -/
def Obligations.RomLoadCopiesOrRefuses : Prop :=
  (∀ (s : State) (bytes : List Byte), bytes.length ≤ 3584 → ∃ t, s.romLoad bytes = .next t ∧
    (∀ j (h : j < bytes.length), t.memRead (0x200 + j) = bytes[j]) ∧
    ChangesOnly (fun p => ∃ a : Addr, p = .memByte a ∧ 0x200 ≤ a.toNat ∧ a.toNat < 0x200 + bytes.length) s t) ∧
  (∀ (s : State) (bytes : List Byte), 3584 < bytes.length → s.romLoad bytes = .refused .romTooLarge ∧
    (Session.on .awaitingRom s).move (.romLoad bytes) = .next (.on .loadFailed s, .error .romTooLarge) ∧
    (Session.on .loadFailed s).move .step = .refused .moveNotAllowed)

/-- Derived from R240, R207: initialize is allowed at any time, and gives every piece of the hardware's state its reset
value, from any state, a halted one too. The model's own counter of draws is not such a piece (log entry 3). -/
def Obligations.InitializeResetsEverything : Prop :=
  ∀ t : Session, ∃ u, t.move .init = .next (.on .awaitingRom u, .ok .done) ∧
    ∀ p : Part, p ≠ .draws → u.observe p = State.reset.observe p

/-- Derived from R216, R243: before the first step of a session the host has initialized the block and loaded a ROM
that was accepted. -/
def Obligations.NoStepBeforeRomLoad : Prop :=
  ∀ (ms : List HostMove) (t : Session), Session.moves .off ms = .next t → HostMove.step ∈ ms →
    ∃ before bytes after, ms = before ++ HostMove.romLoad bytes :: after ∧ HostMove.step ∉ before ∧
      HostMove.init ∈ before ∧ bytes.length ≤ 3584

/-- Derived from R6, R206, R216: every move the host makes keeps the session's invariant, and so the core's. -/
def Obligations.HostMovesKeepInvariant : Prop :=
  ∀ (t t' : Session) m r, t.Inv → t.move m = .next (t', r) → t'.Inv

/-- Derived from R111, R245: at the end of a run the core is not stopped, and its step, a jump to itself, changes
nothing. -/
def Obligations.EndOfRunLoopsInPlace : Prop := ∀ s : State, s.endOfRun = true → step s = .next s
end

