-- ==== Sys2Proof/Laws/Decode.lean ====
section
/-! SUPPORT. The fields of an encoded word: each format gives back what was put into it (spec/30_encoding.md R81, R82). -/

namespace Sys2Proof

section
variable (op x y n : Nibble) (kk : Byte) (nnn : Addr) (k : Nat)

theorem getLsbD_encodeNNN : (encodeNNN op nnn).getLsbD k = if k < 12 then nnn.getLsbD k else op.getLsbD (k - 12) := by
  rw [encodeNNN, BitVec.getLsbD_cast, BitVec.getLsbD_append]

theorem getLsbD_encodeXKK : (encodeXKK op x kk).getLsbD k =
    if k < 8 then kk.getLsbD k else if k - 8 < 4 then x.getLsbD (k - 8) else op.getLsbD (k - 8 - 4) := by
  rw [encodeXKK, BitVec.getLsbD_cast, BitVec.getLsbD_append, BitVec.getLsbD_append]

theorem getLsbD_encodeXYN : (encodeXYN op x y n).getLsbD k =
    if k < 8 then (if k < 4 then n.getLsbD k else y.getLsbD (k - 4))
    else if k - 8 < 4 then x.getLsbD (k - 8) else op.getLsbD (k - 8 - 4) := by
  rw [encodeXYN, BitVec.getLsbD_cast, BitVec.getLsbD_append, BitVec.getLsbD_append, BitVec.getLsbD_append]

theorem getLsbD_wordOfBytes (hi lo : Byte) :
    (wordOfBytes hi lo).getLsbD k = if k < 8 then lo.getLsbD k else hi.getLsbD (k - 8) := by
  rw [wordOfBytes, BitVec.getLsbD_cast, BitVec.getLsbD_append]

@[simp] theorem opField_encodeNNN : opField (encodeNNN op nnn) = op := by
  apply BitVec.eq_of_getLsbD_eq
  intro k hk
  rw [opField, BitVec.getLsbD_extractLsb', getLsbD_encodeNNN]
  have h0 : ¬ 12 + k < 12 := by omega
  have h1 : 12 + k - 12 = k := by omega
  simp only [hk, h0, h1, decide_true, Bool.true_and, if_false]

@[simp] theorem nnnField_encodeNNN : nnnField (encodeNNN op nnn) = nnn := by
  apply BitVec.eq_of_getLsbD_eq
  intro k hk
  rw [nnnField, BitVec.getLsbD_extractLsb', getLsbD_encodeNNN]
  have h0 : 0 + k = k := by omega
  simp only [hk, h0, decide_true, Bool.true_and, if_true]

@[simp] theorem opField_encodeXKK : opField (encodeXKK op x kk) = op := by
  apply BitVec.eq_of_getLsbD_eq
  intro k hk
  rw [opField, BitVec.getLsbD_extractLsb', getLsbD_encodeXKK]
  have h0 : ¬ 12 + k < 8 := by omega
  have h1 : ¬ 12 + k - 8 < 4 := by omega
  have h2 : 12 + k - 8 - 4 = k := by omega
  simp only [hk, h0, h1, h2, decide_true, Bool.true_and, if_false]

@[simp] theorem xField_encodeXKK : xField (encodeXKK op x kk) = x := by
  apply BitVec.eq_of_getLsbD_eq
  intro k hk
  rw [xField, BitVec.getLsbD_extractLsb', getLsbD_encodeXKK]
  have h0 : ¬ 8 + k < 8 := by omega
  have h1 : 8 + k - 8 = k := by omega
  simp only [hk, h0, h1, decide_true, Bool.true_and, if_true, if_false]

@[simp] theorem kkField_encodeXKK : kkField (encodeXKK op x kk) = kk := by
  apply BitVec.eq_of_getLsbD_eq
  intro k hk
  rw [kkField, BitVec.getLsbD_extractLsb', getLsbD_encodeXKK]
  have h0 : 0 + k = k := by omega
  simp only [hk, h0, decide_true, Bool.true_and, if_true]

@[simp] theorem opField_encodeXYN : opField (encodeXYN op x y n) = op := by
  apply BitVec.eq_of_getLsbD_eq
  intro k hk
  rw [opField, BitVec.getLsbD_extractLsb', getLsbD_encodeXYN]
  have h0 : ¬ 12 + k < 8 := by omega
  have h1 : ¬ 12 + k - 8 < 4 := by omega
  have h2 : 12 + k - 8 - 4 = k := by omega
  simp only [hk, h0, h1, h2, decide_true, Bool.true_and, if_false]

@[simp] theorem xField_encodeXYN : xField (encodeXYN op x y n) = x := by
  apply BitVec.eq_of_getLsbD_eq
  intro k hk
  rw [xField, BitVec.getLsbD_extractLsb', getLsbD_encodeXYN]
  have h0 : ¬ 8 + k < 8 := by omega
  have h1 : 8 + k - 8 = k := by omega
  simp only [hk, h0, h1, decide_true, Bool.true_and, if_true, if_false]

@[simp] theorem yField_encodeXYN : yField (encodeXYN op x y n) = y := by
  apply BitVec.eq_of_getLsbD_eq
  intro k hk
  rw [yField, BitVec.getLsbD_extractLsb', getLsbD_encodeXYN]
  have h0 : 4 + k < 8 := by omega
  have h1 : ¬ 4 + k < 4 := by omega
  have h2 : 4 + k - 4 = k := by omega
  simp only [hk, h0, h1, h2, decide_true, Bool.true_and, if_true, if_false]

@[simp] theorem nField_encodeXYN : nField (encodeXYN op x y n) = n := by
  apply BitVec.eq_of_getLsbD_eq
  intro k hk
  rw [nField, BitVec.getLsbD_extractLsb', getLsbD_encodeXYN]
  have h0 : 0 + k = k := by omega
  have h1 : k < 8 := by omega
  simp only [hk, h0, h1, decide_true, Bool.true_and, if_true]

end

/-- The two bytes of a word, put together again (R53). -/
@[simp] theorem wordOfBytes_highByte_lowByte (w : Word) : wordOfBytes (highByte w) (lowByte w) = w := by
  apply BitVec.eq_of_getLsbD_eq
  intro k hk
  rw [getLsbD_wordOfBytes, highByte, lowByte, BitVec.getLsbD_extractLsb', BitVec.getLsbD_extractLsb']
  by_cases h : k < 8
  · simp [h]
  · have h1 : 8 + (k - 8) = k := by omega
    have h2 : k - 8 < 8 := by omega
    simp [h, h1, h2]

@[simp] theorem highByte_wordOfBytes (hi lo : Byte) : highByte (wordOfBytes hi lo) = hi := by
  apply BitVec.eq_of_getLsbD_eq
  intro k hk
  rw [highByte, BitVec.getLsbD_extractLsb', getLsbD_wordOfBytes]
  simp [hk]

@[simp] theorem lowByte_wordOfBytes (hi lo : Byte) : lowByte (wordOfBytes hi lo) = lo := by
  apply BitVec.eq_of_getLsbD_eq
  intro k hk
  rw [lowByte, BitVec.getLsbD_extractLsb', getLsbD_wordOfBytes]
  simp [hk]

/-- A word is its four nibbles (R81). -/
theorem encodeXYN_fields (w : Word) : encodeXYN (opField w) (xField w) (yField w) (nField w) = w := by
  apply BitVec.eq_of_getLsbD_eq
  intro k hk
  rw [getLsbD_encodeXYN, opField, xField, yField, nField]
  simp only [BitVec.getLsbD_extractLsb']
  split
  · split
    · next h => simp [h]
    · next h => simp [show k - 4 < 4 by omega, show 4 + (k - 4) = k by omega]
  · split
    · next h => simp [h, show 8 + (k - 8) = k by omega]
    · next h => simp [show k - 8 - 4 < 4 by omega, show 12 + (k - 8 - 4) = k by omega]

/-- A word is its top nibble, its `x` and its low byte (R81). -/
theorem encodeXKK_fields (w : Word) : encodeXKK (opField w) (xField w) (kkField w) = w := by
  apply BitVec.eq_of_getLsbD_eq
  intro k hk
  rw [getLsbD_encodeXKK, opField, xField, kkField]
  simp only [BitVec.getLsbD_extractLsb']
  split
  · next h => simp [h]
  · split
    · next h => simp [h, show 8 + (k - 8) = k by omega]
    · next h => simp [show k - 8 - 4 < 4 by omega, show 12 + (k - 8 - 4) = k by omega]

/-- A word is its top nibble and its address field (R81). -/
theorem encodeNNN_fields (w : Word) : encodeNNN (opField w) (nnnField w) = w := by
  apply BitVec.eq_of_getLsbD_eq
  intro k hk
  rw [getLsbD_encodeNNN, opField, nnnField]
  simp only [BitVec.getLsbD_extractLsb']
  split
  · next h => simp [h]
  · next h => simp [show k - 12 < 4 by omega, show 12 + (k - 12) = k by omega]

/-- The decoder answers an instruction exactly when the opcode map gives the word one. -/
theorem decodeWord_ok_iff (w : Word) (i : Instr) : decodeWord w = .ok i ↔ decodeFields w = some i := by
  unfold decodeWord
  cases decodeFields w <;> simp

/-- The decoder refuses a word by its one name, exactly when the opcode map gives it no instruction. -/
theorem decodeWord_error_iff (w : Word) (e : DecodeError) :
    decodeWord w = .error e ↔ decodeFields w = none ∧ e = .unrecognized w := by
  unfold decodeWord
  cases decodeFields w <;> simp [eq_comm]

/-! The masks of the opcode map, applied to an encoded word: each keeps the fields it fixes and clears the rest. -/

theorem encodeNNN_and_F000 (op : Nibble) (nnn : Addr) : encodeNNN op nnn &&& 0xF000#16 = encodeNNN op 0 := by
  apply BitVec.eq_of_getLsbD_eq
  intro k hk
  have hmask : ∀ k < 16, (0xF000#16).getLsbD k = decide (12 ≤ k) := by decide
  rw [BitVec.getLsbD_and, getLsbD_encodeNNN, getLsbD_encodeNNN, hmask k hk]
  by_cases h : k < 12
  · simp [h]
  · simp [h, show 12 ≤ k by omega]

theorem encodeXKK_and_F000 (op x : Nibble) (kk : Byte) : encodeXKK op x kk &&& 0xF000#16 = encodeXKK op 0 0 := by
  apply BitVec.eq_of_getLsbD_eq
  intro k hk
  have hmask : ∀ k < 16, (0xF000#16).getLsbD k = decide (12 ≤ k) := by decide
  rw [BitVec.getLsbD_and, getLsbD_encodeXKK, getLsbD_encodeXKK, hmask k hk]
  by_cases h : k < 8
  · simp [h, show ¬ 12 ≤ k by omega]
  · by_cases h' : k - 8 < 4
    · simp [h, h', show ¬ 12 ≤ k by omega]
    · simp [h, h', show 12 ≤ k by omega]

theorem encodeXKK_and_F0FF (op x : Nibble) (kk : Byte) : encodeXKK op x kk &&& 0xF0FF#16 = encodeXKK op 0 kk := by
  apply BitVec.eq_of_getLsbD_eq
  intro k hk
  have hmask : ∀ k < 16, (0xF0FF#16).getLsbD k = (decide (k < 8) || decide (12 ≤ k)) := by decide
  rw [BitVec.getLsbD_and, getLsbD_encodeXKK, getLsbD_encodeXKK, hmask k hk]
  by_cases h : k < 8
  · simp [h]
  · by_cases h' : k - 8 < 4
    · simp [h, h', show ¬ 12 ≤ k by omega]
    · simp [h, h', show 12 ≤ k by omega]

theorem encodeXYN_and_F00F (op x y n : Nibble) : encodeXYN op x y n &&& 0xF00F#16 = encodeXYN op 0 0 n := by
  apply BitVec.eq_of_getLsbD_eq
  intro k hk
  have hmask : ∀ k < 16, (0xF00F#16).getLsbD k = (decide (k < 4) || decide (12 ≤ k)) := by decide
  rw [BitVec.getLsbD_and, getLsbD_encodeXYN, getLsbD_encodeXYN, hmask k hk]
  by_cases h0 : k < 4
  · simp [h0, show k < 8 by omega]
  · by_cases h : k < 8
    · simp [h0, h, show ¬ 12 ≤ k by omega]
    · by_cases h' : k - 8 < 4
      · simp [h0, h, h', show ¬ 12 ≤ k by omega]
      · simp [h0, h, h', show 12 ≤ k by omega]

theorem encodeXYN_and_F000 (op x y n : Nibble) : encodeXYN op x y n &&& 0xF000#16 = encodeXYN op 0 0 0 := by
  apply BitVec.eq_of_getLsbD_eq
  intro k hk
  have hmask : ∀ k < 16, (0xF000#16).getLsbD k = decide (12 ≤ k) := by decide
  rw [BitVec.getLsbD_and, getLsbD_encodeXYN, getLsbD_encodeXYN, hmask k hk]
  by_cases h : k < 8
  · simp [h, show ¬ 12 ≤ k by omega]
  · by_cases h' : k - 8 < 4
    · simp [h, h', show ¬ 12 ≤ k by omega]
    · simp [h, h', show 12 ≤ k by omega]

/-- A word under a mask that a row of the opcode map has, with that row's pattern, is well formed. -/
theorem wellFormedWord_of_row {w m p : Word} (hr : (⟨m, p⟩ : OpcodeRow) ∈ opcodeRows) (h : w &&& m = p) :
    wellFormedWord w = true := by
  rw [wellFormedWord, List.any_eq_true]
  exact ⟨_, hr, by simp [OpcodeRow.covers, h]⟩

/-! The words of the formats as numbers. -/

theorem toNat_encodeNNN (op : Nibble) (nnn : Addr) : (encodeNNN op nnn).toNat = 0x1000 * op.toNat + nnn.toNat := by
  rw [encodeNNN, BitVec.toNat_cast, BitVec.toNat_append, ← Nat.shiftLeft_add_eq_or_of_lt nnn.isLt, Nat.shiftLeft_eq]
  omega

theorem toNat_encodeXKK (op x : Nibble) (kk : Byte) :
    (encodeXKK op x kk).toNat = 0x1000 * op.toNat + 0x100 * x.toNat + kk.toNat := by
  rw [encodeXKK, BitVec.toNat_cast, BitVec.toNat_append, ← Nat.shiftLeft_add_eq_or_of_lt kk.isLt, Nat.shiftLeft_eq,
    BitVec.toNat_append, ← Nat.shiftLeft_add_eq_or_of_lt x.isLt, Nat.shiftLeft_eq]
  omega

theorem toNat_encodeXYN (op x y n : Nibble) :
    (encodeXYN op x y n).toNat = 0x1000 * op.toNat + 0x100 * x.toNat + 0x10 * y.toNat + n.toNat := by
  have h : ∀ a b : Nibble, (a ++ b).toNat = 0x10 * a.toNat + b.toNat := fun a b => by
    rw [BitVec.toNat_append, ← Nat.shiftLeft_add_eq_or_of_lt b.isLt, Nat.shiftLeft_eq]
    omega
  have hyn := (y ++ n).isLt
  rw [encodeXYN, BitVec.toNat_cast, BitVec.toNat_append, ← Nat.shiftLeft_add_eq_or_of_lt hyn, Nat.shiftLeft_eq, h, h]
  omega

/-- A word given as a number is the encoding that has that number. -/
theorem ofNat_eq_encode {n : Nat} {i : Instr} (h : (encode i).toNat = n) : BitVec.ofNat 16 n = encode i := by
  rw [← h, BitVec.ofNat_toNat, BitVec.setWidth_eq]

end Sys2Proof
end

