-- ==== Sys2Proof/Laws/State.lean ====
section
/-! SUPPORT. One lemma per field per update of the state, each true by unfolding the update once. -/

namespace Sys2Proof.Machine.State

variable (s : State)

/-! ### writeV -/

@[simp] theorem writeV_v (x : Reg) (b : Byte) : (s.writeV x b).v = s.v.set x.toNat b x.isLt := rfl
@[simp] theorem writeV_i (x : Reg) (b : Byte) : (s.writeV x b).i = s.i := rfl
@[simp] theorem writeV_pc (x : Reg) (b : Byte) : (s.writeV x b).pc = s.pc := rfl
@[simp] theorem writeV_stack (x : Reg) (b : Byte) : (s.writeV x b).stack = s.stack := rfl
@[simp] theorem writeV_sp (x : Reg) (b : Byte) : (s.writeV x b).sp = s.sp := rfl
@[simp] theorem writeV_dt (x : Reg) (b : Byte) : (s.writeV x b).dt = s.dt := rfl
@[simp] theorem writeV_st (x : Reg) (b : Byte) : (s.writeV x b).st = s.st := rfl
@[simp] theorem writeV_fb (x : Reg) (b : Byte) : (s.writeV x b).fb = s.fb := rfl
@[simp] theorem writeV_key (x : Reg) (b : Byte) : (s.writeV x b).key = s.key := rfl
@[simp] theorem writeV_mem (x : Reg) (b : Byte) : (s.writeV x b).mem = s.mem := rfl
@[simp] theorem writeV_fault (x : Reg) (b : Byte) : (s.writeV x b).fault = s.fault := rfl
@[simp] theorem writeV_draws (x : Reg) (b : Byte) : (s.writeV x b).draws = s.draws := rfl

/-! ### setI -/

@[simp] theorem setI_v (w : Word) : (s.setI w).v = s.v := rfl
@[simp] theorem setI_i (w : Word) : (s.setI w).i = w := rfl
@[simp] theorem setI_pc (w : Word) : (s.setI w).pc = s.pc := rfl
@[simp] theorem setI_stack (w : Word) : (s.setI w).stack = s.stack := rfl
@[simp] theorem setI_sp (w : Word) : (s.setI w).sp = s.sp := rfl
@[simp] theorem setI_dt (w : Word) : (s.setI w).dt = s.dt := rfl
@[simp] theorem setI_st (w : Word) : (s.setI w).st = s.st := rfl
@[simp] theorem setI_fb (w : Word) : (s.setI w).fb = s.fb := rfl
@[simp] theorem setI_key (w : Word) : (s.setI w).key = s.key := rfl
@[simp] theorem setI_mem (w : Word) : (s.setI w).mem = s.mem := rfl
@[simp] theorem setI_fault (w : Word) : (s.setI w).fault = s.fault := rfl
@[simp] theorem setI_draws (w : Word) : (s.setI w).draws = s.draws := rfl

/-! ### setPc -/

@[simp] theorem setPc_v (w : Word) : (s.setPc w).v = s.v := rfl
@[simp] theorem setPc_i (w : Word) : (s.setPc w).i = s.i := rfl
@[simp] theorem setPc_pc (w : Word) : (s.setPc w).pc = w := rfl
@[simp] theorem setPc_stack (w : Word) : (s.setPc w).stack = s.stack := rfl
@[simp] theorem setPc_sp (w : Word) : (s.setPc w).sp = s.sp := rfl
@[simp] theorem setPc_dt (w : Word) : (s.setPc w).dt = s.dt := rfl
@[simp] theorem setPc_st (w : Word) : (s.setPc w).st = s.st := rfl
@[simp] theorem setPc_fb (w : Word) : (s.setPc w).fb = s.fb := rfl
@[simp] theorem setPc_key (w : Word) : (s.setPc w).key = s.key := rfl
@[simp] theorem setPc_mem (w : Word) : (s.setPc w).mem = s.mem := rfl
@[simp] theorem setPc_fault (w : Word) : (s.setPc w).fault = s.fault := rfl
@[simp] theorem setPc_draws (w : Word) : (s.setPc w).draws = s.draws := rfl

/-! ### advancePc -/

@[simp] theorem advancePc_v : s.advancePc.v = s.v := rfl
@[simp] theorem advancePc_i : s.advancePc.i = s.i := rfl
@[simp] theorem advancePc_pc : s.advancePc.pc = s.pc + 2 := rfl
@[simp] theorem advancePc_stack : s.advancePc.stack = s.stack := rfl
@[simp] theorem advancePc_sp : s.advancePc.sp = s.sp := rfl
@[simp] theorem advancePc_dt : s.advancePc.dt = s.dt := rfl
@[simp] theorem advancePc_st : s.advancePc.st = s.st := rfl
@[simp] theorem advancePc_fb : s.advancePc.fb = s.fb := rfl
@[simp] theorem advancePc_key : s.advancePc.key = s.key := rfl
@[simp] theorem advancePc_mem : s.advancePc.mem = s.mem := rfl
@[simp] theorem advancePc_fault : s.advancePc.fault = s.fault := rfl
@[simp] theorem advancePc_draws : s.advancePc.draws = s.draws := rfl

/-! ### skipIf -/

@[simp] theorem skipIf_v (taken : Bool) : (s.skipIf taken).v = s.v := rfl
@[simp] theorem skipIf_i (taken : Bool) : (s.skipIf taken).i = s.i := rfl
@[simp] theorem skipIf_pc (taken : Bool) : (s.skipIf taken).pc = if taken then s.pc + 4 else s.pc + 2 := rfl
@[simp] theorem skipIf_stack (taken : Bool) : (s.skipIf taken).stack = s.stack := rfl
@[simp] theorem skipIf_sp (taken : Bool) : (s.skipIf taken).sp = s.sp := rfl
@[simp] theorem skipIf_dt (taken : Bool) : (s.skipIf taken).dt = s.dt := rfl
@[simp] theorem skipIf_st (taken : Bool) : (s.skipIf taken).st = s.st := rfl
@[simp] theorem skipIf_fb (taken : Bool) : (s.skipIf taken).fb = s.fb := rfl
@[simp] theorem skipIf_key (taken : Bool) : (s.skipIf taken).key = s.key := rfl
@[simp] theorem skipIf_mem (taken : Bool) : (s.skipIf taken).mem = s.mem := rfl
@[simp] theorem skipIf_fault (taken : Bool) : (s.skipIf taken).fault = s.fault := rfl
@[simp] theorem skipIf_draws (taken : Bool) : (s.skipIf taken).draws = s.draws := rfl

/-! ### setDt -/

@[simp] theorem setDt_v (b : Byte) : (s.setDt b).v = s.v := rfl
@[simp] theorem setDt_i (b : Byte) : (s.setDt b).i = s.i := rfl
@[simp] theorem setDt_pc (b : Byte) : (s.setDt b).pc = s.pc := rfl
@[simp] theorem setDt_stack (b : Byte) : (s.setDt b).stack = s.stack := rfl
@[simp] theorem setDt_sp (b : Byte) : (s.setDt b).sp = s.sp := rfl
@[simp] theorem setDt_dt (b : Byte) : (s.setDt b).dt = b := rfl
@[simp] theorem setDt_st (b : Byte) : (s.setDt b).st = s.st := rfl
@[simp] theorem setDt_fb (b : Byte) : (s.setDt b).fb = s.fb := rfl
@[simp] theorem setDt_key (b : Byte) : (s.setDt b).key = s.key := rfl
@[simp] theorem setDt_mem (b : Byte) : (s.setDt b).mem = s.mem := rfl
@[simp] theorem setDt_fault (b : Byte) : (s.setDt b).fault = s.fault := rfl
@[simp] theorem setDt_draws (b : Byte) : (s.setDt b).draws = s.draws := rfl

/-! ### setSt -/

@[simp] theorem setSt_v (b : Byte) : (s.setSt b).v = s.v := rfl
@[simp] theorem setSt_i (b : Byte) : (s.setSt b).i = s.i := rfl
@[simp] theorem setSt_pc (b : Byte) : (s.setSt b).pc = s.pc := rfl
@[simp] theorem setSt_stack (b : Byte) : (s.setSt b).stack = s.stack := rfl
@[simp] theorem setSt_sp (b : Byte) : (s.setSt b).sp = s.sp := rfl
@[simp] theorem setSt_dt (b : Byte) : (s.setSt b).dt = s.dt := rfl
@[simp] theorem setSt_st (b : Byte) : (s.setSt b).st = b := rfl
@[simp] theorem setSt_fb (b : Byte) : (s.setSt b).fb = s.fb := rfl
@[simp] theorem setSt_key (b : Byte) : (s.setSt b).key = s.key := rfl
@[simp] theorem setSt_mem (b : Byte) : (s.setSt b).mem = s.mem := rfl
@[simp] theorem setSt_fault (b : Byte) : (s.setSt b).fault = s.fault := rfl
@[simp] theorem setSt_draws (b : Byte) : (s.setSt b).draws = s.draws := rfl

/-! ### push -/

@[simp] theorem push_v (w : Word) : (s.push w).v = s.v := rfl
@[simp] theorem push_i (w : Word) : (s.push w).i = s.i := rfl
@[simp] theorem push_pc (w : Word) : (s.push w).pc = s.pc := rfl
@[simp] theorem push_stack (w : Word) : (s.push w).stack = s.stack.setIfInBounds s.sp.val w := rfl
@[simp] theorem push_sp (w : Word) : (s.push w).sp = s.sp + 1 := rfl
@[simp] theorem push_dt (w : Word) : (s.push w).dt = s.dt := rfl
@[simp] theorem push_st (w : Word) : (s.push w).st = s.st := rfl
@[simp] theorem push_fb (w : Word) : (s.push w).fb = s.fb := rfl
@[simp] theorem push_key (w : Word) : (s.push w).key = s.key := rfl
@[simp] theorem push_mem (w : Word) : (s.push w).mem = s.mem := rfl
@[simp] theorem push_fault (w : Word) : (s.push w).fault = s.fault := rfl
@[simp] theorem push_draws (w : Word) : (s.push w).draws = s.draws := rfl

/-! ### pop -/

@[simp] theorem pop_v : s.pop.v = s.v := rfl
@[simp] theorem pop_i : s.pop.i = s.i := rfl
@[simp] theorem pop_pc : s.pop.pc = s.pc := rfl
@[simp] theorem pop_stack : s.pop.stack = s.stack := rfl
@[simp] theorem pop_sp : s.pop.sp = s.sp - 1 := rfl
@[simp] theorem pop_dt : s.pop.dt = s.dt := rfl
@[simp] theorem pop_st : s.pop.st = s.st := rfl
@[simp] theorem pop_fb : s.pop.fb = s.fb := rfl
@[simp] theorem pop_key : s.pop.key = s.key := rfl
@[simp] theorem pop_mem : s.pop.mem = s.mem := rfl
@[simp] theorem pop_fault : s.pop.fault = s.fault := rfl
@[simp] theorem pop_draws : s.pop.draws = s.draws := rfl

/-! ### setFb -/

@[simp] theorem setFb_v (fb : Framebuffer) : (s.setFb fb).v = s.v := rfl
@[simp] theorem setFb_i (fb : Framebuffer) : (s.setFb fb).i = s.i := rfl
@[simp] theorem setFb_pc (fb : Framebuffer) : (s.setFb fb).pc = s.pc := rfl
@[simp] theorem setFb_stack (fb : Framebuffer) : (s.setFb fb).stack = s.stack := rfl
@[simp] theorem setFb_sp (fb : Framebuffer) : (s.setFb fb).sp = s.sp := rfl
@[simp] theorem setFb_dt (fb : Framebuffer) : (s.setFb fb).dt = s.dt := rfl
@[simp] theorem setFb_st (fb : Framebuffer) : (s.setFb fb).st = s.st := rfl
@[simp] theorem setFb_fb (fb : Framebuffer) : (s.setFb fb).fb = fb := rfl
@[simp] theorem setFb_key (fb : Framebuffer) : (s.setFb fb).key = s.key := rfl
@[simp] theorem setFb_mem (fb : Framebuffer) : (s.setFb fb).mem = s.mem := rfl
@[simp] theorem setFb_fault (fb : Framebuffer) : (s.setFb fb).fault = s.fault := rfl
@[simp] theorem setFb_draws (fb : Framebuffer) : (s.setFb fb).draws = s.draws := rfl

/-! ### countDraw -/

@[simp] theorem countDraw_v : s.countDraw.v = s.v := rfl
@[simp] theorem countDraw_i : s.countDraw.i = s.i := rfl
@[simp] theorem countDraw_pc : s.countDraw.pc = s.pc := rfl
@[simp] theorem countDraw_stack : s.countDraw.stack = s.stack := rfl
@[simp] theorem countDraw_sp : s.countDraw.sp = s.sp := rfl
@[simp] theorem countDraw_dt : s.countDraw.dt = s.dt := rfl
@[simp] theorem countDraw_st : s.countDraw.st = s.st := rfl
@[simp] theorem countDraw_fb : s.countDraw.fb = s.fb := rfl
@[simp] theorem countDraw_key : s.countDraw.key = s.key := rfl
@[simp] theorem countDraw_mem : s.countDraw.mem = s.mem := rfl
@[simp] theorem countDraw_fault : s.countDraw.fault = s.fault := rfl
@[simp] theorem countDraw_draws : s.countDraw.draws = s.draws + 1 := rfl

/-! ### memWrite -/

@[simp] theorem memWrite_v (addr : Nat) (b : Byte) : (s.memWrite addr b).v = s.v := rfl
@[simp] theorem memWrite_i (addr : Nat) (b : Byte) : (s.memWrite addr b).i = s.i := rfl
@[simp] theorem memWrite_pc (addr : Nat) (b : Byte) : (s.memWrite addr b).pc = s.pc := rfl
@[simp] theorem memWrite_stack (addr : Nat) (b : Byte) : (s.memWrite addr b).stack = s.stack := rfl
@[simp] theorem memWrite_sp (addr : Nat) (b : Byte) : (s.memWrite addr b).sp = s.sp := rfl
@[simp] theorem memWrite_dt (addr : Nat) (b : Byte) : (s.memWrite addr b).dt = s.dt := rfl
@[simp] theorem memWrite_st (addr : Nat) (b : Byte) : (s.memWrite addr b).st = s.st := rfl
@[simp] theorem memWrite_fb (addr : Nat) (b : Byte) : (s.memWrite addr b).fb = s.fb := rfl
@[simp] theorem memWrite_key (addr : Nat) (b : Byte) : (s.memWrite addr b).key = s.key := rfl
@[simp] theorem memWrite_mem (addr : Nat) (b : Byte) : (s.memWrite addr b).mem = s.mem.write (maskAddress addr) b := rfl
@[simp] theorem memWrite_fault (addr : Nat) (b : Byte) : (s.memWrite addr b).fault = s.fault := rfl
@[simp] theorem memWrite_draws (addr : Nat) (b : Byte) : (s.memWrite addr b).draws = s.draws := rfl

/-! ### raiseFault -/

@[simp] theorem raiseFault_v (c : FaultCode) (p w : Word) : (s.raiseFault c p w).v = s.v := rfl
@[simp] theorem raiseFault_i (c : FaultCode) (p w : Word) : (s.raiseFault c p w).i = s.i := rfl
@[simp] theorem raiseFault_pc (c : FaultCode) (p w : Word) : (s.raiseFault c p w).pc = s.pc := rfl
@[simp] theorem raiseFault_stack (c : FaultCode) (p w : Word) : (s.raiseFault c p w).stack = s.stack := rfl
@[simp] theorem raiseFault_sp (c : FaultCode) (p w : Word) : (s.raiseFault c p w).sp = s.sp := rfl
@[simp] theorem raiseFault_dt (c : FaultCode) (p w : Word) : (s.raiseFault c p w).dt = s.dt := rfl
@[simp] theorem raiseFault_st (c : FaultCode) (p w : Word) : (s.raiseFault c p w).st = s.st := rfl
@[simp] theorem raiseFault_fb (c : FaultCode) (p w : Word) : (s.raiseFault c p w).fb = s.fb := rfl
@[simp] theorem raiseFault_key (c : FaultCode) (p w : Word) : (s.raiseFault c p w).key = s.key := rfl
@[simp] theorem raiseFault_mem (c : FaultCode) (p w : Word) : (s.raiseFault c p w).mem = s.mem := rfl
@[simp] theorem raiseFault_fault (c : FaultCode) (p w : Word) : (s.raiseFault c p w).fault = ⟨c, p, w⟩ := rfl
@[simp] theorem raiseFault_draws (c : FaultCode) (p w : Word) : (s.raiseFault c p w).draws = s.draws := rfl

/-! ### writeResultThenFlag -/

@[simp] theorem writeResultThenFlag_v (x : Reg) (b : Byte) (f : Bool) : (s.writeResultThenFlag x b f).v = ((s.writeV x b).writeV flagReg (flagByte f)).v := rfl
@[simp] theorem writeResultThenFlag_i (x : Reg) (b : Byte) (f : Bool) : (s.writeResultThenFlag x b f).i = s.i := rfl
@[simp] theorem writeResultThenFlag_pc (x : Reg) (b : Byte) (f : Bool) : (s.writeResultThenFlag x b f).pc = s.pc := rfl
@[simp] theorem writeResultThenFlag_stack (x : Reg) (b : Byte) (f : Bool) : (s.writeResultThenFlag x b f).stack = s.stack := rfl
@[simp] theorem writeResultThenFlag_sp (x : Reg) (b : Byte) (f : Bool) : (s.writeResultThenFlag x b f).sp = s.sp := rfl
@[simp] theorem writeResultThenFlag_dt (x : Reg) (b : Byte) (f : Bool) : (s.writeResultThenFlag x b f).dt = s.dt := rfl
@[simp] theorem writeResultThenFlag_st (x : Reg) (b : Byte) (f : Bool) : (s.writeResultThenFlag x b f).st = s.st := rfl
@[simp] theorem writeResultThenFlag_fb (x : Reg) (b : Byte) (f : Bool) : (s.writeResultThenFlag x b f).fb = s.fb := rfl
@[simp] theorem writeResultThenFlag_key (x : Reg) (b : Byte) (f : Bool) : (s.writeResultThenFlag x b f).key = s.key := rfl
@[simp] theorem writeResultThenFlag_mem (x : Reg) (b : Byte) (f : Bool) : (s.writeResultThenFlag x b f).mem = s.mem := rfl
@[simp] theorem writeResultThenFlag_fault (x : Reg) (b : Byte) (f : Bool) : (s.writeResultThenFlag x b f).fault = s.fault := rfl
@[simp] theorem writeResultThenFlag_draws (x : Reg) (b : Byte) (f : Bool) : (s.writeResultThenFlag x b f).draws = s.draws := rfl

/-! ### setKeys -/

@[simp] theorem setKeys_v (keys : Keys) : (s.setKeys keys).v = s.v := rfl
@[simp] theorem setKeys_i (keys : Keys) : (s.setKeys keys).i = s.i := rfl
@[simp] theorem setKeys_pc (keys : Keys) : (s.setKeys keys).pc = s.pc := rfl
@[simp] theorem setKeys_stack (keys : Keys) : (s.setKeys keys).stack = s.stack := rfl
@[simp] theorem setKeys_sp (keys : Keys) : (s.setKeys keys).sp = s.sp := rfl
@[simp] theorem setKeys_dt (keys : Keys) : (s.setKeys keys).dt = s.dt := rfl
@[simp] theorem setKeys_st (keys : Keys) : (s.setKeys keys).st = s.st := rfl
@[simp] theorem setKeys_fb (keys : Keys) : (s.setKeys keys).fb = s.fb := rfl
@[simp] theorem setKeys_key (keys : Keys) : (s.setKeys keys).key = keys := rfl
@[simp] theorem setKeys_mem (keys : Keys) : (s.setKeys keys).mem = s.mem := rfl
@[simp] theorem setKeys_fault (keys : Keys) : (s.setKeys keys).fault = s.fault := rfl
@[simp] theorem setKeys_draws (keys : Keys) : (s.setKeys keys).draws = s.draws := rfl

/-! ### timerTick -/

@[simp] theorem timerTick_v : s.timerTick.v = s.v := rfl
@[simp] theorem timerTick_i : s.timerTick.i = s.i := rfl
@[simp] theorem timerTick_pc : s.timerTick.pc = s.pc := rfl
@[simp] theorem timerTick_stack : s.timerTick.stack = s.stack := rfl
@[simp] theorem timerTick_sp : s.timerTick.sp = s.sp := rfl
@[simp] theorem timerTick_dt : s.timerTick.dt = tickTimer s.dt := rfl
@[simp] theorem timerTick_st : s.timerTick.st = tickTimer s.st := rfl
@[simp] theorem timerTick_fb : s.timerTick.fb = s.fb := rfl
@[simp] theorem timerTick_key : s.timerTick.key = s.key := rfl
@[simp] theorem timerTick_mem : s.timerTick.mem = s.mem := rfl
@[simp] theorem timerTick_fault : s.timerTick.fault = s.fault := rfl
@[simp] theorem timerTick_draws : s.timerTick.draws = s.draws := rfl

end Sys2Proof.Machine.State
end

