-- ==== Sys2Proof/Laws/Memory.lean ====
section
/-! SUPPORT. Main memory: a byte read after a write, and the canonical form, which every memory operation keeps. -/

namespace Sys2Proof.Machine

namespace Memory

variable (m : Memory) (a b : Nat) (v : Byte)

/-- An address that memory does not list reads as after initialization. -/
theorem read_eq_unlisted (h : ∀ c ∈ m, c.1 ≠ a) : Memory.read m a = unlisted a := by
  induction m with
  | nil => rfl
  | cons c m ih =>
    have hc := h c (by simp)
    simp [Memory.read, hc, ih (fun d hd => h d (by simp [hd]))]

theorem read_insert : Memory.read (Memory.insert m a v) b = if b = a then v else Memory.read m b := by
  induction m with
  | nil => simp [Memory.insert, Memory.read, eq_comm]
  | cons c m ih =>
    unfold Memory.insert
    split
    · simp [Memory.read, eq_comm]
    · split
      · next h =>
        subst h
        by_cases hb : c.1 = b
        · simp [Memory.read, hb]
        · simp [Memory.read, hb, Ne.symm hb]
      · next h =>
        simp only [Memory.read, ih]
        by_cases hc : c.1 = b
        · have : ¬ b = a := by omega
          simp [hc, this]
        · simp [hc]

theorem read_erase : Memory.read (Memory.erase m a) b = if b = a then unlisted b else Memory.read m b := by
  by_cases hb : b = a
  · subst hb
    rw [if_pos rfl]
    apply read_eq_unlisted
    intro c hc
    simpa [Memory.erase] using (List.mem_filter.mp hc).2
  · rw [if_neg hb]
    induction m with
    | nil => rfl
    | cons c m ih =>
      by_cases hc : c.1 = a
      · have : ¬ c.1 = b := by omega
        simpa [Memory.erase, List.filter, hc, Memory.read, this, Ne.symm hb] using ih
      · have hstep : Memory.erase (c :: m) a = c :: Memory.erase m a := by simp [Memory.erase, List.filter, hc]
        simp only [hstep, Memory.read, ih]

/-- What a write does, all of it: the byte written reads as the value written, every other byte as before. -/
@[simp] theorem read_write : Memory.read (Memory.write m a v) b = if b = a then v else Memory.read m b := by
  unfold Memory.write
  split
  · next h =>
    rw [read_erase]
    by_cases hb : b = a
    · subst hb
      simp [h]
    · simp [hb]
  · exact read_insert m a b v

theorem wfFrom_of_le {lo lo' : Nat} (h : lo' ≤ lo) {m : Memory} (hm : Memory.wfFrom lo m) : Memory.wfFrom lo' m := by
  cases m with
  | nil => rfl
  | cons c m =>
    simp only [Memory.wfFrom, Bool.and_eq_true, decide_eq_true_eq] at hm ⊢
    exact ⟨⟨⟨by omega, hm.1.1.2⟩, hm.1.2⟩, hm.2⟩

theorem wfFrom_erase {lo : Nat} {m : Memory} (hm : Memory.wfFrom lo m) : Memory.wfFrom lo (Memory.erase m a) := by
  induction m generalizing lo with
  | nil => rfl
  | cons c m ih =>
    simp only [Memory.wfFrom, Bool.and_eq_true, decide_eq_true_eq] at hm
    by_cases hc : c.1 = a
    · have : Memory.erase (c :: m) a = Memory.erase m a := by simp [Memory.erase, List.filter, hc]
      rw [this]
      exact wfFrom_of_le (by omega) (ih hm.2)
    · have : Memory.erase (c :: m) a = c :: Memory.erase m a := by simp [Memory.erase, List.filter, hc]
      rw [this]
      simp only [Memory.wfFrom, Bool.and_eq_true, decide_eq_true_eq]
      exact ⟨hm.1, ih hm.2⟩

theorem wfFrom_insert {lo : Nat} {m : Memory} (hm : Memory.wfFrom lo m) (hlo : lo ≤ a) (ha : a < Config.memSize)
    (hv : v ≠ unlisted a) : Memory.wfFrom lo (Memory.insert m a v) := by
  induction m generalizing lo with
  | nil => simp [Memory.insert, Memory.wfFrom, hlo, ha, hv]
  | cons c m ih =>
    have hm' := hm
    simp only [Memory.wfFrom, Bool.and_eq_true, decide_eq_true_eq] at hm'
    unfold Memory.insert
    split
    · simp only [Memory.wfFrom, Bool.and_eq_true, decide_eq_true_eq]
      exact ⟨⟨⟨hlo, ha⟩, hv⟩, ⟨⟨by omega, hm'.1.1.2⟩, hm'.1.2⟩, hm'.2⟩
    · split
      · next h =>
        subst h
        simp only [Memory.wfFrom, Bool.and_eq_true, decide_eq_true_eq]
        exact ⟨⟨⟨hlo, ha⟩, hv⟩, hm'.2⟩
      · simp only [Memory.wfFrom, Bool.and_eq_true, decide_eq_true_eq]
        exact ⟨hm'.1, ih hm'.2 (by omega)⟩

/-- A write keeps the canonical form. -/
theorem wf_write {m : Memory} (hm : Memory.wf m) (ha : a < Config.memSize) : Memory.wf (Memory.write m a v) := by
  unfold Memory.write
  split
  · exact wfFrom_erase a hm
  · next hv => exact wfFrom_insert a v hm (Nat.zero_le a) ha hv

end Memory

theorem maskAddress_lt (a : Nat) : maskAddress a < Config.memSize := Nat.mod_lt a (by decide)

namespace State

variable (s : State)

/-- What a store does, all of it (R52): one masked byte becomes the value written. -/
@[simp] theorem memRead_memWrite (a b : Nat) (v : Byte) :
    (s.memWrite a v).memRead b = if maskAddress b = maskAddress a then v else s.memRead b := by
  simp [State.memRead]

theorem memWrite_wf (a : Nat) (v : Byte) (h : s.mem.wf) : (s.memWrite a v).mem.wf :=
  Memory.wf_write _ _ h (maskAddress_lt a)

theorem memRead_congr {s t : State} (h : t.mem = s.mem) (a : Nat) : t.memRead a = s.memRead a := by
  simp [State.memRead, h]

/-- Memory reads do not depend on the address beyond its mask (R52). -/
theorem memRead_mask (a : Nat) : s.memRead (maskAddress a) = s.memRead a := by
  simp [State.memRead, maskAddress]

theorem fetch16_congr {s t : State} (h : t.mem = s.mem) (a : Nat) : t.fetch16 a = s.fetch16 a := by
  simp [State.fetch16, State.memRead, h]

end State

end Sys2Proof.Machine
end

