-- ==== Sys2Proof/Laws/Ops.lean ====
section
/-! SUPPORT. What each shared operation over registers, the stack, keys and blocks of memory does, said once. -/

namespace Sys2Proof.Machine.State

variable (s : State)

/-! ### Registers -/

/-- What a register write does, all of it: Vx holds the byte, every other register what it held. -/
@[simp] theorem readV_writeV (x y : Reg) (b : Byte) :
    (s.writeV x b).readV y = if y = x then b else s.readV y := by
  unfold State.readV State.writeV
  simp only [Vector.getElem_set, BitVec.toNat_inj, eq_comm]

theorem readV_congr {s t : State} (h : t.v = s.v) (x : Reg) : t.readV x = s.readV x := by
  simp [State.readV, h]

/-- Two register files that read the same everywhere are the same. -/
theorem v_ext {s t : State} (h : ∀ x : Reg, t.readV x = s.readV x) : t.v = s.v := by
  apply Vector.ext
  intro k hk
  have := h (BitVec.ofNat 4 k)
  simpa [State.readV, Nat.mod_eq_of_lt hk] using this

/-- The ALU family's write order (R142): VF holds the flag, Vx the result unless it is VF. -/
@[simp] theorem readV_writeResultThenFlag (x y : Reg) (b : Byte) (f : Bool) :
    (s.writeResultThenFlag x b f).readV y =
      if y = 15#4 then flagByte f else if y = x then b else s.readV y := by
  simp [State.writeResultThenFlag]

/-- VF after an operation with a flag holds the flag (R142). -/
@[simp] theorem readV_flag_writeResultThenFlag (x : Reg) (b : Byte) (f : Bool) :
    (s.writeResultThenFlag x b f).readV 15#4 = flagByte f := by
  simp

@[simp] theorem toNat_flagByte (f : Bool) : (flagByte f).toNat = f.toNat := by cases f <;> rfl

@[simp] theorem readV_setI (w : Word) (x : Reg) : (s.setI w).readV x = s.readV x := rfl
@[simp] theorem readV_setPc (w : Word) (x : Reg) : (s.setPc w).readV x = s.readV x := rfl
@[simp] theorem readV_advancePc (x : Reg) : s.advancePc.readV x = s.readV x := rfl
@[simp] theorem readV_skipIf (c : Bool) (x : Reg) : (s.skipIf c).readV x = s.readV x := rfl
@[simp] theorem readV_setDt (b : Byte) (x : Reg) : (s.setDt b).readV x = s.readV x := rfl
@[simp] theorem readV_setSt (b : Byte) (x : Reg) : (s.setSt b).readV x = s.readV x := rfl
@[simp] theorem readV_push (w : Word) (x : Reg) : (s.push w).readV x = s.readV x := rfl
@[simp] theorem readV_pop (x : Reg) : s.pop.readV x = s.readV x := rfl
@[simp] theorem readV_setFb (fb : Framebuffer) (x : Reg) : (s.setFb fb).readV x = s.readV x := rfl
@[simp] theorem readV_countDraw (x : Reg) : s.countDraw.readV x = s.readV x := rfl
@[simp] theorem readV_memWrite (a : Nat) (b : Byte) (x : Reg) : (s.memWrite a b).readV x = s.readV x := rfl
@[simp] theorem readV_raiseFault (c : FaultCode) (p w : Word) (x : Reg) :
    (s.raiseFault c p w).readV x = s.readV x := rfl

@[simp] theorem memRead_writeV (x : Reg) (b : Byte) (a : Nat) : (s.writeV x b).memRead a = s.memRead a := rfl
@[simp] theorem memRead_writeResultThenFlag (x : Reg) (b : Byte) (f : Bool) (a : Nat) :
    (s.writeResultThenFlag x b f).memRead a = s.memRead a := rfl
@[simp] theorem memRead_setI (w : Word) (a : Nat) : (s.setI w).memRead a = s.memRead a := rfl
@[simp] theorem memRead_setPc (w : Word) (a : Nat) : (s.setPc w).memRead a = s.memRead a := rfl
@[simp] theorem memRead_advancePc (a : Nat) : s.advancePc.memRead a = s.memRead a := rfl
@[simp] theorem memRead_skipIf (c : Bool) (a : Nat) : (s.skipIf c).memRead a = s.memRead a := rfl
@[simp] theorem memRead_setDt (b : Byte) (a : Nat) : (s.setDt b).memRead a = s.memRead a := rfl
@[simp] theorem memRead_setSt (b : Byte) (a : Nat) : (s.setSt b).memRead a = s.memRead a := rfl
@[simp] theorem memRead_push (w : Word) (a : Nat) : (s.push w).memRead a = s.memRead a := rfl
@[simp] theorem memRead_pop (a : Nat) : s.pop.memRead a = s.memRead a := rfl
@[simp] theorem memRead_setFb (fb : Framebuffer) (a : Nat) : (s.setFb fb).memRead a = s.memRead a := rfl
@[simp] theorem memRead_countDraw (a : Nat) : s.countDraw.memRead a = s.memRead a := rfl
@[simp] theorem memRead_raiseFault (c : FaultCode) (p w : Word) (a : Nat) :
    (s.raiseFault c p w).memRead a = s.memRead a := rfl
@[simp] theorem memRead_setKeys (keys : Keys) (a : Nat) : (s.setKeys keys).memRead a = s.memRead a := rfl
@[simp] theorem memRead_timerTick (a : Nat) : s.timerTick.memRead a = s.memRead a := rfl

/-! ### The call stack -/

/-- What a push below capacity does (R25): one entry is written, `SP` goes up by one. -/
theorem push_spec (w : Word) (h : s.sp.val < 16) :
    (s.push w).sp.val = s.sp.val + 1 ∧
      ∀ (k : Nat) (hk : k < 16), (s.push w).stack[k] = if k = s.sp.val then w else s.stack[k] := by
  have h1 := Fin.val_add_one_of_lt (i := s.sp) (by rw [Fin.lt_def]; exact h)
  constructor
  · simpa using h1
  · intro k hk
    simp only [State.push_stack]
    rw [Vector.getElem_setIfInBounds hk]
    simp [eq_comm]

/-- What a pop of a stack that is not empty does (R25): `SP` goes down by one, and the entry read is the top. -/
theorem pop_spec (h : 0 < s.sp.val) : s.pop.sp.val = s.sp.val - 1 ∧ s.top = s.stack[s.sp.val - 1] := by
  refine ⟨?_, rfl⟩
  have h1 : (1 : Fin 17).val = 1 := rfl
  rw [State.pop_sp, Fin.sub_val_of_le (by rw [Fin.le_def, h1]; omega), h1]

/-- A pop takes back what a push put there (R112). -/
theorem top_push (w : Word) (h : s.sp.val < 16) : (s.push w).top = w ∧ (s.push w).pop.sp = s.sp := by
  obtain ⟨hsp, -⟩ := s.push_spec w h
  constructor
  · simp only [State.top, hsp, Nat.add_sub_cancel]
    simp
  · apply Fin.ext
    rw [((s.push w).pop_spec (by omega)).1, hsp]
    rfl

/-! ### Keys -/

/-- The scan of the keys (R183) finds the least pressed key. -/
theorem firstPressed_some {k : Nibble} (h : s.firstPressed = some k) :
    s.keyPressed k = true ∧ ∀ j : Nibble, j < k → s.keyPressed j = false := by
  unfold State.firstPressed at h
  rw [List.find?_eq_some_iff_append] at h
  obtain ⟨hk, as, bs, hl, hbefore⟩ := h
  refine ⟨hk, fun j hj => ?_⟩
  have hlen : ∀ m (hm : m < 16), ((List.range 16).map (BitVec.ofNat 4))[m]? = some (BitVec.ofNat 4 m) := by
    intro m hm
    simp [List.getElem?_map, List.getElem?_range hm]
  have hk' : ((List.range 16).map (BitVec.ofNat 4))[as.length]? = some k := by
    rw [hl]
    simp
  have hpos : as.length < 16 := by
    have := (List.getElem?_eq_some_iff.mp hk').1
    simpa using this
  have hkval : k = BitVec.ofNat 4 as.length := by
    have := hlen as.length hpos
    rw [hk'] at this
    exact Option.some.inj this
  have hjlt : j.toNat < as.length := by
    rw [hkval, BitVec.lt_def, BitVec.toNat_ofNat, Nat.mod_eq_of_lt hpos] at hj
    exact hj
  have hj' : as[j.toNat]? = some j := by
    have h1 := hlen j.toNat j.isLt
    rw [hl, List.getElem?_append_left hjlt] at h1
    simpa using h1
  have := hbefore j (List.mem_of_getElem? hj')
  simpa using this

/-- The scan of the keys (R183) finds none exactly when none is pressed. -/
theorem firstPressed_none : s.firstPressed = none ↔ ∀ k : Nibble, s.keyPressed k = false := by
  unfold State.firstPressed
  rw [List.find?_eq_none]
  constructor
  · intro h k
    have := h k (List.mem_map.mpr ⟨k.toNat, List.mem_range.mpr k.isLt, by simp⟩)
    simpa using this
  · intro h k _
    simp [h k]

/-! ### Blocks of memory -/

/-- A list of stores changes memory only. -/
theorem memWriteList_frame (a : Nat) (bs : List Byte) :
    s.memWriteList a bs = { s with mem := (s.memWriteList a bs).mem } := by
  induction bs generalizing s a with
  | nil => rfl
  | cons b bs ih =>
    simp only [State.memWriteList]
    rw [ih]
    rfl

/-- A list of stores leaves every byte outside it alone. -/
theorem memRead_memWriteList_other (a c : Nat) (bs : List Byte)
    (h : ∀ j < bs.length, maskAddress c ≠ maskAddress (a + j)) : (s.memWriteList a bs).memRead c = s.memRead c := by
  induction bs generalizing s a with
  | nil => rfl
  | cons b bs ih =>
    simp only [State.memWriteList]
    rw [ih]
    · have := h 0 (by simp)
      simp at this
      simp [this]
    · intro j hj
      have := h (j + 1) (by simpa using hj)
      rwa [show a + 1 + j = a + (j + 1) by omega]

/-- A list of stores of at most 4096 bytes puts each byte at its place. -/
theorem memRead_memWriteList (a c : Nat) (bs : List Byte) (hl : bs.length ≤ Config.memSize) (j : Nat)
    (hj : j < bs.length) (hc : maskAddress c = maskAddress (a + j)) : (s.memWriteList a bs).memRead c = bs[j] := by
  induction bs generalizing s a j with
  | nil => simp at hj
  | cons b bs ih =>
    simp only [State.memWriteList, List.length_cons] at hl hj ⊢
    cases j with
    | zero =>
      rw [memRead_memWriteList_other]
      · simp [hc]
      · intro j hj'
        rw [hc]
        unfold maskAddress Config.memSize at *
        omega
    | succ j =>
      rw [ih _ _ (by omega) j (by omega) (by rw [hc, show a + 1 + j = a + (j + 1) by omega])]
      simp

theorem memWriteList_wf (a : Nat) (bs : List Byte) (h : s.mem.wf) : (s.memWriteList a bs).mem.wf := by
  induction bs generalizing s a with
  | nil => exact h
  | cons b bs ih => exact ih _ _ (s.memWrite_wf a b h)

/-- Storing registers changes memory only. -/
theorem storeRegisters_frame (n : Nat) : s.storeRegisters n = { s with mem := (s.storeRegisters n).mem } := by
  induction n with
  | zero => rfl
  | succ n ih =>
    simp only [State.storeRegisters]
    rw [ih]
    rfl

theorem storeRegisters_wf (n : Nat) (h : s.mem.wf) : (s.storeRegisters n).mem.wf := by
  induction n with
  | zero => exact h
  | succ n ih => exact memWrite_wf _ _ _ ih

/-- What storing V0 to V(n - 1) does to memory, all of it (R154). -/
theorem memRead_storeRegisters (n : Nat) (hn : n ≤ 16) (c : Nat) :
    ((∀ k < n, maskAddress c ≠ maskAddress (s.dataAddress k)) → (s.storeRegisters n).memRead c = s.memRead c) ∧
      ∀ k < n, maskAddress c = maskAddress (s.dataAddress k) →
        (s.storeRegisters n).memRead c = s.readV (BitVec.ofNat 4 k) := by
  induction n with
  | zero => exact ⟨fun _ => rfl, fun k hk => by omega⟩
  | succ n ih =>
    obtain ⟨ih1, ih2⟩ := ih (by omega)
    constructor
    · intro h
      simp only [State.storeRegisters, State.memRead_memWrite, if_neg (h n (by omega))]
      exact ih1 fun k hk => h k (by omega)
    · intro k hk hc
      by_cases hkn : k = n
      · subst hkn
        simp [State.storeRegisters, hc]
      · have hne : maskAddress c ≠ maskAddress (s.dataAddress n) := by
          rw [hc]
          unfold maskAddress State.dataAddress Config.memSize
          omega
        simp only [State.storeRegisters, State.memRead_memWrite, if_neg hne]
        exact ih2 k (by omega) hc

/-- Loading registers changes registers only. -/
theorem loadRegisters_frame (n : Nat) : s.loadRegisters n = { s with v := (s.loadRegisters n).v } := by
  induction n with
  | zero => rfl
  | succ n ih =>
    simp only [State.loadRegisters]
    rw [ih]
    rfl

/-- What loading V0 to V(n - 1) does, all of it (R155). -/
theorem readV_loadRegisters (n : Nat) (hn : n ≤ 16) (x : Reg) :
    (s.loadRegisters n).readV x = if x.toNat < n then s.memRead (s.dataAddress x.toNat) else s.readV x := by
  induction n with
  | zero => simp [State.loadRegisters]
  | succ n ih =>
    simp only [State.loadRegisters, State.readV_writeV, ih (by omega)]
    by_cases hx : x = BitVec.ofNat 4 n
    · simp [hx, Nat.mod_eq_of_lt (show n < 16 by omega)]
    · have : x.toNat ≠ n := fun h => hx (by rw [← h]; simp)
      have : (x.toNat < n + 1) = (x.toNat < n) := by
        apply propext
        omega
      simp [hx, this]

/-! What memWriteList leaves alone, field by field. -/

@[simp] theorem memWriteList_i (a : Nat) (bs : List Byte) : (s.memWriteList a bs).i = s.i := by rw [s.memWriteList_frame]
@[simp] theorem memWriteList_pc (a : Nat) (bs : List Byte) : (s.memWriteList a bs).pc = s.pc := by rw [s.memWriteList_frame]
@[simp] theorem memWriteList_stack (a : Nat) (bs : List Byte) : (s.memWriteList a bs).stack = s.stack := by rw [s.memWriteList_frame]
@[simp] theorem memWriteList_sp (a : Nat) (bs : List Byte) : (s.memWriteList a bs).sp = s.sp := by rw [s.memWriteList_frame]
@[simp] theorem memWriteList_dt (a : Nat) (bs : List Byte) : (s.memWriteList a bs).dt = s.dt := by rw [s.memWriteList_frame]
@[simp] theorem memWriteList_st (a : Nat) (bs : List Byte) : (s.memWriteList a bs).st = s.st := by rw [s.memWriteList_frame]
@[simp] theorem memWriteList_fb (a : Nat) (bs : List Byte) : (s.memWriteList a bs).fb = s.fb := by rw [s.memWriteList_frame]
@[simp] theorem memWriteList_key (a : Nat) (bs : List Byte) : (s.memWriteList a bs).key = s.key := by rw [s.memWriteList_frame]
@[simp] theorem memWriteList_fault (a : Nat) (bs : List Byte) : (s.memWriteList a bs).fault = s.fault := by rw [s.memWriteList_frame]
@[simp] theorem memWriteList_draws (a : Nat) (bs : List Byte) : (s.memWriteList a bs).draws = s.draws := by rw [s.memWriteList_frame]
@[simp] theorem memWriteList_v (a : Nat) (bs : List Byte) : (s.memWriteList a bs).v = s.v := by rw [s.memWriteList_frame]
@[simp] theorem readV_memWriteList (a : Nat) (bs : List Byte) (x : Reg) : (s.memWriteList a bs).readV x = s.readV x :=
  readV_congr (s.memWriteList_v a bs) x

/-! What storeRegisters leaves alone, field by field. -/

@[simp] theorem storeRegisters_i (n : Nat) : (s.storeRegisters n).i = s.i := by rw [s.storeRegisters_frame]
@[simp] theorem storeRegisters_pc (n : Nat) : (s.storeRegisters n).pc = s.pc := by rw [s.storeRegisters_frame]
@[simp] theorem storeRegisters_stack (n : Nat) : (s.storeRegisters n).stack = s.stack := by rw [s.storeRegisters_frame]
@[simp] theorem storeRegisters_sp (n : Nat) : (s.storeRegisters n).sp = s.sp := by rw [s.storeRegisters_frame]
@[simp] theorem storeRegisters_dt (n : Nat) : (s.storeRegisters n).dt = s.dt := by rw [s.storeRegisters_frame]
@[simp] theorem storeRegisters_st (n : Nat) : (s.storeRegisters n).st = s.st := by rw [s.storeRegisters_frame]
@[simp] theorem storeRegisters_fb (n : Nat) : (s.storeRegisters n).fb = s.fb := by rw [s.storeRegisters_frame]
@[simp] theorem storeRegisters_key (n : Nat) : (s.storeRegisters n).key = s.key := by rw [s.storeRegisters_frame]
@[simp] theorem storeRegisters_fault (n : Nat) : (s.storeRegisters n).fault = s.fault := by rw [s.storeRegisters_frame]
@[simp] theorem storeRegisters_draws (n : Nat) : (s.storeRegisters n).draws = s.draws := by rw [s.storeRegisters_frame]
@[simp] theorem storeRegisters_v (n : Nat) : (s.storeRegisters n).v = s.v := by rw [s.storeRegisters_frame]
@[simp] theorem readV_storeRegisters (n : Nat) (x : Reg) : (s.storeRegisters n).readV x = s.readV x :=
  readV_congr (s.storeRegisters_v n) x

/-! What loadRegisters leaves alone, field by field. -/

@[simp] theorem loadRegisters_i (n : Nat) : (s.loadRegisters n).i = s.i := by rw [s.loadRegisters_frame]
@[simp] theorem loadRegisters_pc (n : Nat) : (s.loadRegisters n).pc = s.pc := by rw [s.loadRegisters_frame]
@[simp] theorem loadRegisters_stack (n : Nat) : (s.loadRegisters n).stack = s.stack := by rw [s.loadRegisters_frame]
@[simp] theorem loadRegisters_sp (n : Nat) : (s.loadRegisters n).sp = s.sp := by rw [s.loadRegisters_frame]
@[simp] theorem loadRegisters_dt (n : Nat) : (s.loadRegisters n).dt = s.dt := by rw [s.loadRegisters_frame]
@[simp] theorem loadRegisters_st (n : Nat) : (s.loadRegisters n).st = s.st := by rw [s.loadRegisters_frame]
@[simp] theorem loadRegisters_fb (n : Nat) : (s.loadRegisters n).fb = s.fb := by rw [s.loadRegisters_frame]
@[simp] theorem loadRegisters_key (n : Nat) : (s.loadRegisters n).key = s.key := by rw [s.loadRegisters_frame]
@[simp] theorem loadRegisters_fault (n : Nat) : (s.loadRegisters n).fault = s.fault := by rw [s.loadRegisters_frame]
@[simp] theorem loadRegisters_draws (n : Nat) : (s.loadRegisters n).draws = s.draws := by rw [s.loadRegisters_frame]
@[simp] theorem loadRegisters_mem (n : Nat) : (s.loadRegisters n).mem = s.mem := by rw [s.loadRegisters_frame]
@[simp] theorem memRead_loadRegisters (n : Nat) (c : Nat) : (s.loadRegisters n).memRead c = s.memRead c :=
  memRead_congr (s.loadRegisters_mem n) c

end Sys2Proof.Machine.State
end

