-- ==== Sys2Proof/Laws/Display.lean ====
section
/-! SUPPORT. The framebuffer: one pixel after another pixel is flipped, and after a sprite bit is plotted. -/

namespace Sys2Proof.Machine

namespace Framebuffer

/-- What a flip does, all of it: one pixel is inverted. -/
@[simp] theorem pixel_flip (fb : Framebuffer) (r r' : Fin 32) (c c' : Fin 64) :
    (Framebuffer.flip fb r c).pixel r' c' = if r' = r ∧ c' = c then !fb.pixel r c else fb.pixel r' c' := by
  unfold Framebuffer.flip Framebuffer.pixel
  rw [Vector.getElem_set]
  by_cases hr : r = r'
  · subst hr
    simp only [if_true, Vector.getElem_set, true_and]
    by_cases hc : c = c'
    · simp [hc]
    · have : ¬ c.val = c'.val := fun h => hc (Fin.ext h)
      simp [this, Ne.symm hc]
  · have : ¬ r.val = r'.val := fun h => hr (Fin.ext h)
    simp [this, Ne.symm hr]

/-- Two framebuffers with the same pixels are the same. -/
theorem ext {fb fb' : Framebuffer} (h : ∀ r c, Framebuffer.pixel fb r c = Framebuffer.pixel fb' r c) : fb = fb' := by
  apply Vector.ext
  intro r hr
  apply Vector.ext
  intro c hc
  exact h ⟨r, hr⟩ ⟨c, hc⟩

@[simp] theorem pixel_blank (r : Fin 32) (c : Fin 64) : Framebuffer.blank.pixel r c = false := by
  simp [Framebuffer.blank, Framebuffer.pixel]

end Framebuffer

namespace Drawing

/-- What plotting one sprite bit does, all of it: its wrapped pixel is inverted, and collides if it was set. -/
theorem plot_spec (d : Drawing) (r c : Nat) :
    (∀ r' c', (d.plot r c).fb.pixel r' c' =
      if r' = Fin.ofNat 32 r ∧ c' = Fin.ofNat 64 c then !d.fb.pixel r' c' else d.fb.pixel r' c') ∧
      (d.plot r c).collision = (d.collision || d.fb.pixel (Fin.ofNat 32 r) (Fin.ofNat 64 c)) := by
  refine ⟨fun r' c' => ?_, rfl⟩
  simp only [Drawing.plot, Framebuffer.pixel_flip]
  split
  · next h => rw [h.1, h.2]
  · rfl

@[simp] theorem plotBits_zero (d : Drawing) (r c : Nat) (b : Byte) : d.plotBits r c b 0 = d := rfl

theorem plotBits_succ (d : Drawing) (r c : Nat) (b : Byte) (k : Nat) :
    d.plotBits r c b (k + 1) =
      if b.getLsbD (7 - k) then (d.plotBits r c b k).plot r (c + k) else d.plotBits r c b k := rfl

@[simp] theorem plotRows_zero (d : Drawing) (sprite : Nat → Byte) (r c : Nat) : d.plotRows sprite r c 0 = d := rfl

theorem plotRows_succ (d : Drawing) (sprite : Nat → Byte) (r c k : Nat) :
    d.plotRows sprite r c (k + 1) = (d.plotRows sprite r c k).plotBits (r + k) c (sprite k) 8 := rfl

end Drawing

/-- How many columns right of column `c` the column `c'` lies, counted around the edge (R64). -/
def columnOffset (c : Nat) (c' : Fin 64) : Nat := (c'.val + 64 - c % 64) % 64
/-- How many rows below row `r` the row `r'` lies, counted around the edge (R64). -/
def rowOffset (r : Nat) (r' : Fin 32) : Nat := (r'.val + 32 - r % 32) % 32

/-- The column reached from `c` by `k` steps to the right is the one at offset `k`. -/
theorem columnOffset_eq_iff (c k : Nat) (hk : k < 64) (c' : Fin 64) : c' = Fin.ofNat 64 (c + k) ↔ columnOffset c c' = k := by
  rw [Fin.ext_iff]; simp only [Fin.ofNat, columnOffset]
  have := c'.isLt
  omega
/-- The row reached from `r` by `k` steps down is the one at offset `k`. -/
theorem rowOffset_eq_iff (r k : Nat) (hk : k < 32) (r' : Fin 32) : r' = Fin.ofNat 32 (r + k) ↔ rowOffset r r' = k := by
  rw [Fin.ext_iff]; simp only [Fin.ofNat, rowOffset]
  have := r'.isLt
  omega

/-- Whether one of the first `k` columns of the byte `b`, drawn at row `r` from column `c`, puts a 1 on a pixel. -/
def bitFallsOn (r c : Nat) (b : Byte) (k : Nat) (r' : Fin 32) (c' : Fin 64) : Bool :=
  decide (r' = Fin.ofNat 32 r) && decide (columnOffset c c' < k) && b.getLsbD (7 - columnOffset c c')

/-- What drawing one sprite byte does, all of it: each pixel is exclusive-ORed with the bit that falls on it, and a set
pixel under a 1 collides. -/
theorem Drawing.plotBits_spec (d : Drawing) (r c : Nat) (b : Byte) (k : Nat) (hk : k ≤ 8) :
    (∀ r' c', (d.plotBits r c b k).fb.pixel r' c' = (d.fb.pixel r' c' != bitFallsOn r c b k r' c')) ∧
    ((d.plotBits r c b k).collision = true ↔ d.collision = true ∨ ∃ r' c', bitFallsOn r c b k r' c' = true ∧ d.fb.pixel r' c' = true) := by
  induction k with
  | zero => simp [bitFallsOn]
  | succ k ih =>
    obtain ⟨ih1, ih2⟩ := ih (by omega)
    rw [Drawing.plotBits_succ]
    by_cases hb : b.getLsbD (7 - k)
    · rw [if_pos hb]
      obtain ⟨p1, p2⟩ := (d.plotBits r c b k).plot_spec r (c + k)
      have hit : ∀ r' c', bitFallsOn r c b (k+1) r' c' = (bitFallsOn r c b k r' c' || (decide (r' = Fin.ofNat 32 r) && decide (c' = Fin.ofNat 64 (c + k)))) := by
        intro r' c'
        have hd : decide (c' = Fin.ofNat 64 (c + k)) = decide (columnOffset c c' = k) := decide_eq_decide.mpr (columnOffset_eq_iff c k (by omega) c')
        rw [hd]
        unfold bitFallsOn
        by_cases h1 : columnOffset c c' = k
        · simp [h1, hb]
        · have : (columnOffset c c' < k + 1) = (columnOffset c c' < k) := by apply propext; omega
          simp [h1, this]
      have nohit : ∀ r', bitFallsOn r c b k r' (Fin.ofNat 64 (c+k)) = false := by
        intro r'
        have := (columnOffset_eq_iff c k (by omega) (Fin.ofNat 64 (c+k))).mp rfl
        simp only [bitFallsOn, this]; simp
      constructor
      · intro r' c'
        rw [p1, hit, ih1]
        by_cases h1 : r' = Fin.ofNat 32 r ∧ c' = Fin.ofNat 64 (c+k)
        · obtain ⟨rfl, rfl⟩ := h1
          rw [nohit]; simp
        · rw [if_neg h1]
          have : (decide (r' = Fin.ofNat 32 r) && decide (c' = Fin.ofNat 64 (c + k))) = false := by
            rw [← Bool.not_eq_true]; simpa using h1
          rw [this]; simp
      · rw [p2, Bool.or_eq_true, ih2, ih1, nohit]
        constructor
        · rintro ((h | ⟨r', c', h1, h2⟩) | h)
          · exact .inl h
          · exact .inr ⟨r', c', by rw [hit, h1]; rfl, h2⟩
          · refine .inr ⟨_, _, ?_, by simpa using h⟩
            rw [hit]; simp
        · rintro (h | ⟨r', c', h1, h2⟩)
          · exact .inl (.inl h)
          · rw [hit, Bool.or_eq_true] at h1
            rcases h1 with h1 | h1
            · exact .inl (.inr ⟨r', c', h1, h2⟩)
            · simp only [Bool.and_eq_true, decide_eq_true_eq] at h1
              obtain ⟨rfl, rfl⟩ := h1
              right; simpa using h2
    · rw [if_neg hb]
      have hit : ∀ r' c', bitFallsOn r c b (k+1) r' c' = bitFallsOn r c b k r' c' := by
        intro r' c'
        unfold bitFallsOn
        by_cases h1 : columnOffset c c' = k
        · simp [h1, hb]
        · have : (columnOffset c c' < k + 1) = (columnOffset c c' < k) := by apply propext; omega
          simp [this]
      simp only [hit]
      exact ⟨ih1, ih2⟩

/-- Whether one of the first `k` rows of a sprite, drawn from row `r` and column `c`, puts a 1 on a pixel. -/
def spriteFallsOn (sp : Nat → Byte) (r c : Nat) (k : Nat) (r' : Fin 32) (c' : Fin 64) : Bool :=
  decide (rowOffset r r' < k) && decide (columnOffset c c' < 8) && (sp (rowOffset r r')).getLsbD (7 - columnOffset c c')

/-- What drawing a sprite does, all of it: each pixel is exclusive-ORed with the bit that falls on it, and a set pixel
under a 1 collides. No pixel is met twice, since a sprite has fewer rows than the framebuffer (R171). -/
theorem Drawing.plotRows_spec (d : Drawing) (sp : Nat → Byte) (r c : Nat) (k : Nat) (hk : k ≤ 32) :
    (∀ r' c', (d.plotRows sp r c k).fb.pixel r' c' = (d.fb.pixel r' c' != spriteFallsOn sp r c k r' c')) ∧
    ((d.plotRows sp r c k).collision = true ↔ d.collision = true ∨ ∃ r' c', spriteFallsOn sp r c k r' c' = true ∧ d.fb.pixel r' c' = true) := by
  induction k with
  | zero => simp [spriteFallsOn]
  | succ k ih =>
    obtain ⟨ih1, ih2⟩ := ih (by omega)
    rw [Drawing.plotRows_succ]
    obtain ⟨p1, p2⟩ := Drawing.plotBits_spec (d.plotRows sp r c k) (r + k) c (sp k) 8 (by omega)
    have hit : ∀ r' c', spriteFallsOn sp r c (k+1) r' c' = (spriteFallsOn sp r c k r' c' || bitFallsOn (r + k) c (sp k) 8 r' c') := by
      intro r' c'
      unfold bitFallsOn spriteFallsOn
      have hd : decide (r' = Fin.ofNat 32 (r + k)) = decide (rowOffset r r' = k) := decide_eq_decide.mpr (rowOffset_eq_iff r k (by omega) r')
      rw [hd]
      by_cases h1 : rowOffset r r' = k
      · simp [h1]
      · have : (rowOffset r r' < k + 1) = (rowOffset r r' < k) := by apply propext; omega
        simp [h1, this]
    have excl : ∀ r' c', bitFallsOn (r + k) c (sp k) 8 r' c' = true → spriteFallsOn sp r c k r' c' = false := by
      intro r' c' h
      unfold bitFallsOn at h
      simp only [Bool.and_eq_true, decide_eq_true_eq] at h
      have := (rowOffset_eq_iff r k (by omega) r').mp h.1.1
      simp [spriteFallsOn, this]
    constructor
    · intro r' c'
      rw [p1, hit, ih1]
      cases h : bitFallsOn (r + k) c (sp k) 8 r' c' with
      | false => simp
      | true => rw [excl _ _ h]; simp
    · rw [p2, ih2]
      constructor
      · rintro ((h | ⟨r', c', h1, h2⟩) | ⟨r', c', h1, h2⟩)
        · exact .inl h
        · exact .inr ⟨r', c', by rw [hit, h1]; rfl, h2⟩
        · rw [ih1, excl _ _ h1] at h2
          exact .inr ⟨r', c', by rw [hit, h1]; simp, by simpa using h2⟩
      · rintro (h | ⟨r', c', h1, h2⟩)
        · exact .inl (.inl h)
        · rw [hit, Bool.or_eq_true] at h1
          rcases h1 with h1 | h1
          · exact .inl (.inr ⟨r', c', h1, h2⟩)
          · exact .inr ⟨r', c', h1, by rw [ih1, excl _ _ h1]; simpa using h2⟩

end Sys2Proof.Machine
end

