-- ==== Sys2Proof/Laws/Frame.lean ====
section
/-! SUPPORT. Frames: which parts of the state each shared operation can change, said once per operation, and how the
frames of operations done one after another compose. -/

namespace Sys2Proof.Machine

theorem ChangesOnly.rfl' {touched : Part → Prop} {s : State} : ChangesOnly touched s s := fun _ _ => rfl

/-- A frame may name more parts. -/
theorem ChangesOnly.mono {a b : Part → Prop} {s t : State} (h : ChangesOnly a s t) (hab : ∀ p, a p → b p) :
    ChangesOnly b s t := fun p hp => h p fun ha => hp (hab p ha)

/-- One operation after another changes only what either names. -/
theorem ChangesOnly.trans {a : Part → Prop} {s t u : State} (h : ChangesOnly a s t) (h' : ChangesOnly a t u) :
    ChangesOnly a s u := fun p hp => (h' p hp).trans (h p hp)

namespace State

variable (s : State)

theorem changesOnly_writeV (x : Reg) (b : Byte) : ChangesOnly (fun p => p = .reg x) s (s.writeV x b) := by
  intro p hp
  cases p <;> try rfl
  next y =>
    have : ¬ y = x := fun h => hp (by rw [h])
    simp [State.observe, this]

theorem changesOnly_writeResultThenFlag (x : Reg) (b : Byte) (f : Bool) :
    ChangesOnly (fun p => p = .reg x ∨ p = .reg flagReg) s (s.writeResultThenFlag x b f) :=
  ((s.changesOnly_writeV x b).mono fun _ => .inl).trans (((s.writeV x b).changesOnly_writeV flagReg _).mono fun _ => .inr)

theorem changesOnly_setI (w : Word) : ChangesOnly (fun p => p = .index) s (s.setI w) := by
  intro p hp
  cases p <;> first | rfl | exact absurd rfl hp

theorem changesOnly_setPc (w : Word) : ChangesOnly (fun p => p = .pc) s (s.setPc w) := by
  intro p hp
  cases p <;> first | rfl | exact absurd rfl hp

theorem changesOnly_advancePc : ChangesOnly (fun p => p = .pc) s s.advancePc := s.changesOnly_setPc _

theorem changesOnly_skipIf (c : Bool) : ChangesOnly (fun p => p = .pc) s (s.skipIf c) := s.changesOnly_setPc _

theorem changesOnly_setDt (b : Byte) : ChangesOnly (fun p => p = .delayTimer) s (s.setDt b) := by
  intro p hp
  cases p <;> first | rfl | exact absurd rfl hp

theorem changesOnly_setSt (b : Byte) : ChangesOnly (fun p => p = .soundTimer) s (s.setSt b) := by
  intro p hp
  cases p <;> first | rfl | exact absurd rfl hp

theorem changesOnly_setFb (fb : Framebuffer) : ChangesOnly (fun p => ∃ r c, p = .pixel r c) s (s.setFb fb) := by
  intro p hp
  cases p <;> first | rfl | exact absurd ⟨_, _, rfl⟩ hp

theorem changesOnly_countDraw : ChangesOnly (fun p => p = .draws) s s.countDraw := by
  intro p hp
  cases p <;> first | rfl | exact absurd rfl hp

/-- A push changes `SP` and one stack entry. -/
theorem changesOnly_push (w : Word) (h : s.sp.val < 16) :
    ChangesOnly (fun p => p = .stackPointer ∨ p = .stackEntry (BitVec.ofNat 4 s.sp.val)) s (s.push w) := by
  intro p hp
  cases p <;> try rfl
  · next k =>
    have hk : k.toNat ≠ s.sp.val := fun hk => hp (.inr (by rw [← hk]; simp))
    simp only [State.observe]
    rw [(s.push_spec w h).2 k.toNat k.isLt, if_neg hk]
  · exact absurd (.inl rfl) hp

theorem changesOnly_pop : ChangesOnly (fun p => p = .stackPointer) s s.pop := by
  intro p hp
  cases p <;> first | rfl | exact absurd rfl hp

/-- Fault entry changes the latch and nothing else (R205). -/
theorem changesOnly_raiseFault (c : FaultCode) (p w : Word) :
    ChangesOnly (fun p => p = .faultCode ∨ p = .faultPc ∨ p = .faultInstr) s (s.raiseFault c p w) := by
  intro p hp
  cases p <;> first | rfl | exact absurd (by simp) hp

theorem changesOnly_setKeys (keys : Keys) : ChangesOnly (fun p => ∃ k, p = .key k) s (s.setKeys keys) := by
  intro p hp
  cases p <;> first | rfl | exact absurd ⟨_, rfl⟩ hp

theorem changesOnly_timerTick : ChangesOnly (fun p => p = .delayTimer ∨ p = .soundTimer) s s.timerTick := by
  intro p hp
  cases p <;> first | rfl | exact absurd (by simp) hp

/-- A state that differs from `s` in memory only changes only the bytes that read differently. -/
theorem changesOnly_mem {t : State} (h : t = { s with mem := t.mem }) (touched : Addr → Prop)
    (hm : ∀ a : Addr, ¬ touched a → t.memRead a.toNat = s.memRead a.toNat) :
    ChangesOnly (fun p => ∃ a, p = .memByte a ∧ touched a) s t := by
  intro p hp
  cases p with
  | memByte a =>
    simp only [State.observe]
    rw [hm a fun ha => hp ⟨a, rfl, ha⟩]
  | _ => rw [h]; rfl

/-- Bytes stored from I on (LD_B) change only those bytes. -/
theorem changesOnly_memWriteList (bs : List Byte) :
    ChangesOnly (fun p => ∃ a, p = .memByte a ∧ StoredAt s bs.length a) s (s.memWriteList (s.dataAddress 0) bs) := by
  refine s.changesOnly_mem (s.memWriteList_frame _ bs) _ fun a ha => s.memRead_memWriteList_other _ _ _ ?_
  intro j hj h
  have ha' : maskAddress a.toNat = a.toNat := Nat.mod_eq_of_lt a.isLt
  exact ha ⟨j, hj, by rw [← ha', h]; simp [State.dataAddress]⟩

/-- Registers stored from I on (ST_REGS) change only those bytes. -/
theorem changesOnly_storeRegisters (n : Nat) (hn : n ≤ 16) :
    ChangesOnly (fun p => ∃ a, p = .memByte a ∧ StoredAt s n a) s (s.storeRegisters n) := by
  refine s.changesOnly_mem (s.storeRegisters_frame n) _ fun a ha => (s.memRead_storeRegisters n hn a.toNat).1 ?_
  intro k hk h
  have ha' : maskAddress a.toNat = a.toNat := Nat.mod_eq_of_lt a.isLt
  exact ha ⟨k, hk, by rw [← ha', h]⟩

/-- Registers loaded from I on (LD_REGS) change only those registers. -/
theorem changesOnly_loadRegisters (n : Nat) (hn : n ≤ 16) :
    ChangesOnly (fun p => ∃ z : Reg, p = .reg z ∧ z.toNat < n) s (s.loadRegisters n) := by
  intro p hp
  cases p with
  | reg z =>
    have hz : ¬ z.toNat < n := fun h => hp ⟨z, rfl, h⟩
    simp only [State.observe]
    rw [s.readV_loadRegisters n hn z, if_neg hz]
  | _ => rw [s.loadRegisters_frame n]; rfl

end State

end Sys2Proof.Machine
end

