-- ==== Sys2Proof/Laws/Host.lean ====
section
/-! SUPPORT. The host's moves: what a move that the session answers can have been (spec/60_exceptions.md R216). -/

namespace Sys2Proof.Machine

theorem State.romLoad_eq (s : State) (bytes : List Byte) :
    s.romLoad bytes =
      if bytes.length ≤ Config.romMax then .next (s.memWriteList Config.romBase bytes) else .refused .romTooLarge := rfl

/-- Everything a move of the host can do, when the session answers it. -/
theorem Session.move_cases {t t' : Session} {m : HostMove} {r : Except Refusal HostReply}
    (h : t.move m = .next (t', r)) :
    (m = .init ∧ t' = .on .awaitingRom t.initialized) ∨
    ∃ p s, t = .on p s ∧
      ((∃ bytes, m = .romLoad bytes ∧ p = .awaitingRom ∧
          ((bytes.length ≤ 3584 ∧ t' = .on .running (s.memWriteList Config.romBase bytes)) ∨
           (3584 < bytes.length ∧ t' = .on .loadFailed s))) ∨
       (m = .step ∧ p = .running ∧ ∃ s', Sys2Proof.Machine.step s = .next s' ∧ t' = .on .running s') ∨
       (∃ keys, m = .setKeys keys ∧ t' = .on p (s.setKeys keys)) ∨
       (m = .timerTick ∧ t' = .on p s.timerTick) ∨
       ((m = .readFramebuffer ∨ m = .readSoundActive ∨ m = .readDebug) ∧ t' = .on p s)) := by
  cases m with
  | init =>
    left
    simp only [Session.move, HostMove.allowed, if_true, Host.Outcome.next.injEq, Prod.mk.injEq] at h
    exact ⟨rfl, h.1.symm⟩
  | romLoad bytes =>
    right
    cases t with
    | off => cases h
    | on p s =>
      refine ⟨p, s, rfl, .inl ⟨bytes, rfl, ?_⟩⟩
      cases p with
      | running => cases h
      | loadFailed => cases h
      | awaitingRom =>
        refine ⟨rfl, ?_⟩
        change (match s.romLoad bytes with
          | .next s' => Host.Outcome.next (Session.on .running s', Except.ok HostReply.done)
          | .fault f => .fault f
          | .refused r => .next (.on .loadFailed s, .error r)) = _ at h
        rw [State.romLoad_eq] at h
        by_cases hl : bytes.length ≤ Config.romMax
        · rw [if_pos hl] at h
          cases h
          exact .inl ⟨hl, rfl⟩
        · rw [if_neg hl] at h
          cases h
          exact .inr ⟨Nat.lt_of_not_le hl, rfl⟩
  | step =>
    right
    cases t with
    | off => cases h
    | on p s =>
      refine ⟨p, s, rfl, .inr (.inl ⟨rfl, ?_⟩)⟩
      cases p with
      | awaitingRom => cases h
      | loadFailed => cases h
      | running =>
        refine ⟨rfl, ?_⟩
        change (match Sys2Proof.Machine.step s with
          | .next s' => Host.Outcome.next (Session.on .running s', Except.ok HostReply.done)
          | .fault f => .fault f
          | .refused r => .refused r) = _ at h
        cases hs : Sys2Proof.Machine.step s with
        | next s' =>
          rw [hs] at h
          cases h
          exact ⟨s', rfl, rfl⟩
        | fault f => cases f
        | refused r =>
          rw [hs] at h
          cases h
  | setKeys keys =>
    right
    cases t with
    | off => cases h
    | on p s =>
      cases h
      exact ⟨p, s, rfl, .inr (.inr (.inl ⟨keys, rfl, rfl⟩))⟩
  | timerTick =>
    right
    cases t with
    | off => cases h
    | on p s =>
      cases h
      exact ⟨p, s, rfl, .inr (.inr (.inr (.inl ⟨rfl, rfl⟩)))⟩
  | readFramebuffer =>
    right
    cases t with
    | off => cases h
    | on p s =>
      cases h
      exact ⟨p, s, rfl, .inr (.inr (.inr (.inr ⟨by simp, rfl⟩)))⟩
  | readSoundActive =>
    right
    cases t with
    | off => cases h
    | on p s =>
      cases h
      exact ⟨p, s, rfl, .inr (.inr (.inr (.inr ⟨by simp, rfl⟩)))⟩
  | readDebug =>
    right
    cases t with
    | off => cases h
    | on p s =>
      cases h
      exact ⟨p, s, rfl, .inr (.inr (.inr (.inr ⟨by simp, rfl⟩)))⟩

end Sys2Proof.Machine
end

