-- ==== Sys2Proof/Laws/PerInstr.lean ====
section
/-! SUPPORT. The family of statements made instruction by instruction: the word of every instruction, with every
operand at every value, is one that a row of the opcode map (spec/opcode_table.json) covers (spec/30_encoding.md R84
to R90). It joins the encoder to the second reading of the opcode map in `WellFormed`. -/

namespace Sys2Proof.Laws.EncodesToTableRow

/-- The word of the instruction is well formed. -/
def Statement (i : Instr) : Prop := wellFormedWord (encode i) = true

theorem cls : Statement .cls :=
  wellFormedWord_of_row (m := 0xFFFF#16) (p := 0x00E0#16) (by decide) (by decide)

theorem ret : Statement .ret :=
  wellFormedWord_of_row (m := 0xFFFF#16) (p := 0x00EE#16) (by decide) (by decide)

theorem jp (nnn : Addr) : Statement (.jp nnn) :=
  wellFormedWord_of_row (m := 0xF000#16) (p := 0x1000#16) (by decide) (encodeNNN_and_F000 _ _)

theorem call (nnn : Addr) : Statement (.call nnn) :=
  wellFormedWord_of_row (m := 0xF000#16) (p := 0x2000#16) (by decide) (encodeNNN_and_F000 _ _)

theorem seImm (x : Reg) (kk : Byte) : Statement (.seImm x kk) :=
  wellFormedWord_of_row (m := 0xF000#16) (p := 0x3000#16) (by decide) (encodeXKK_and_F000 _ _ _)

theorem sneImm (x : Reg) (kk : Byte) : Statement (.sneImm x kk) :=
  wellFormedWord_of_row (m := 0xF000#16) (p := 0x4000#16) (by decide) (encodeXKK_and_F000 _ _ _)

theorem seReg (x : Reg) (y : Reg) : Statement (.seReg x y) :=
  wellFormedWord_of_row (m := 0xF00F#16) (p := 0x5000#16) (by decide) (encodeXYN_and_F00F _ _ _ _)

theorem ldImm (x : Reg) (kk : Byte) : Statement (.ldImm x kk) :=
  wellFormedWord_of_row (m := 0xF000#16) (p := 0x6000#16) (by decide) (encodeXKK_and_F000 _ _ _)

theorem addImm (x : Reg) (kk : Byte) : Statement (.addImm x kk) :=
  wellFormedWord_of_row (m := 0xF000#16) (p := 0x7000#16) (by decide) (encodeXKK_and_F000 _ _ _)

theorem ldReg (x : Reg) (y : Reg) : Statement (.ldReg x y) :=
  wellFormedWord_of_row (m := 0xF00F#16) (p := 0x8000#16) (by decide) (encodeXYN_and_F00F _ _ _ _)

theorem or (x : Reg) (y : Reg) : Statement (.or x y) :=
  wellFormedWord_of_row (m := 0xF00F#16) (p := 0x8001#16) (by decide) (encodeXYN_and_F00F _ _ _ _)

theorem and (x : Reg) (y : Reg) : Statement (.and x y) :=
  wellFormedWord_of_row (m := 0xF00F#16) (p := 0x8002#16) (by decide) (encodeXYN_and_F00F _ _ _ _)

theorem xor (x : Reg) (y : Reg) : Statement (.xor x y) :=
  wellFormedWord_of_row (m := 0xF00F#16) (p := 0x8003#16) (by decide) (encodeXYN_and_F00F _ _ _ _)

theorem addReg (x : Reg) (y : Reg) : Statement (.addReg x y) :=
  wellFormedWord_of_row (m := 0xF00F#16) (p := 0x8004#16) (by decide) (encodeXYN_and_F00F _ _ _ _)

theorem sub (x : Reg) (y : Reg) : Statement (.sub x y) :=
  wellFormedWord_of_row (m := 0xF00F#16) (p := 0x8005#16) (by decide) (encodeXYN_and_F00F _ _ _ _)

theorem shr (x : Reg) (y : Reg) : Statement (.shr x y) :=
  wellFormedWord_of_row (m := 0xF00F#16) (p := 0x8006#16) (by decide) (encodeXYN_and_F00F _ _ _ _)

theorem subn (x : Reg) (y : Reg) : Statement (.subn x y) :=
  wellFormedWord_of_row (m := 0xF00F#16) (p := 0x8007#16) (by decide) (encodeXYN_and_F00F _ _ _ _)

theorem shl (x : Reg) (y : Reg) : Statement (.shl x y) :=
  wellFormedWord_of_row (m := 0xF00F#16) (p := 0x800E#16) (by decide) (encodeXYN_and_F00F _ _ _ _)

theorem sneReg (x : Reg) (y : Reg) : Statement (.sneReg x y) :=
  wellFormedWord_of_row (m := 0xF00F#16) (p := 0x9000#16) (by decide) (encodeXYN_and_F00F _ _ _ _)

theorem ldI (nnn : Addr) : Statement (.ldI nnn) :=
  wellFormedWord_of_row (m := 0xF000#16) (p := 0xA000#16) (by decide) (encodeNNN_and_F000 _ _)

theorem jpV0 (nnn : Addr) : Statement (.jpV0 nnn) :=
  wellFormedWord_of_row (m := 0xF000#16) (p := 0xB000#16) (by decide) (encodeNNN_and_F000 _ _)

theorem rnd (x : Reg) (kk : Byte) : Statement (.rnd x kk) :=
  wellFormedWord_of_row (m := 0xF000#16) (p := 0xC000#16) (by decide) (encodeXKK_and_F000 _ _ _)

theorem drw (x : Reg) (y : Reg) (n : Nibble) : Statement (.drw x y n) :=
  wellFormedWord_of_row (m := 0xF000#16) (p := 0xD000#16) (by decide) (encodeXYN_and_F000 _ _ _ _)

theorem skp (x : Reg) : Statement (.skp x) :=
  wellFormedWord_of_row (m := 0xF0FF#16) (p := 0xE09E#16) (by decide) (encodeXKK_and_F0FF _ _ _)

theorem sknp (x : Reg) : Statement (.sknp x) :=
  wellFormedWord_of_row (m := 0xF0FF#16) (p := 0xE0A1#16) (by decide) (encodeXKK_and_F0FF _ _ _)

theorem ldVxDt (x : Reg) : Statement (.ldVxDt x) :=
  wellFormedWord_of_row (m := 0xF0FF#16) (p := 0xF007#16) (by decide) (encodeXKK_and_F0FF _ _ _)

theorem ldVxK (x : Reg) : Statement (.ldVxK x) :=
  wellFormedWord_of_row (m := 0xF0FF#16) (p := 0xF00A#16) (by decide) (encodeXKK_and_F0FF _ _ _)

theorem ldDtVx (x : Reg) : Statement (.ldDtVx x) :=
  wellFormedWord_of_row (m := 0xF0FF#16) (p := 0xF015#16) (by decide) (encodeXKK_and_F0FF _ _ _)

theorem ldStVx (x : Reg) : Statement (.ldStVx x) :=
  wellFormedWord_of_row (m := 0xF0FF#16) (p := 0xF018#16) (by decide) (encodeXKK_and_F0FF _ _ _)

theorem addI (x : Reg) : Statement (.addI x) :=
  wellFormedWord_of_row (m := 0xF0FF#16) (p := 0xF01E#16) (by decide) (encodeXKK_and_F0FF _ _ _)

theorem ldF (x : Reg) : Statement (.ldF x) :=
  wellFormedWord_of_row (m := 0xF0FF#16) (p := 0xF029#16) (by decide) (encodeXKK_and_F0FF _ _ _)

theorem ldB (x : Reg) : Statement (.ldB x) :=
  wellFormedWord_of_row (m := 0xF0FF#16) (p := 0xF033#16) (by decide) (encodeXKK_and_F0FF _ _ _)

theorem stRegs (x : Reg) : Statement (.stRegs x) :=
  wellFormedWord_of_row (m := 0xF0FF#16) (p := 0xF055#16) (by decide) (encodeXKK_and_F0FF _ _ _)

theorem ldRegs (x : Reg) : Statement (.ldRegs x) :=
  wellFormedWord_of_row (m := 0xF0FF#16) (p := 0xF065#16) (by decide) (encodeXKK_and_F0FF _ _ _)

end Sys2Proof.Laws.EncodesToTableRow
end

