-- ==== Sys2Proof/Laws/Step.lean ====
section
/-! SUPPORT. What a step and a handler can do, said once, for the claims about every instruction. -/

namespace Sys2Proof.Machine

theorem State.halted_eq_false_iff (s : State) : s.halted = false ↔ s.fault.code = .running := by
  simp [State.halted]

theorem State.halted_eq_true_iff (s : State) : s.halted = true ↔ s.fault.code ≠ .running := by
  simp [State.halted]

/-- Everything a step can do, when it answers a next state (R94): a halted core stays, an instruction runs, or an
illegal word faults. -/
theorem step_cases {s t : State} (h : step s = .next t) :
    (s.halted = true ∧ t = s) ∨
    (s.halted = false ∧ ∃ i, decodeWord (s.fetch16 s.pc.toNat) = .ok i ∧ exec i s = .next t) ∨
    (s.halted = false ∧ ∃ e, decodeWord (s.fetch16 s.pc.toNat) = .error e ∧
      t = s.raiseFault .illegalInstruction s.pc (s.fetch16 s.pc.toNat)) := by
  unfold step at h
  cases hh : s.halted with
  | true =>
    rw [hh, if_pos rfl] at h
    cases h
    exact .inl ⟨rfl, rfl⟩
  | false =>
    rw [hh, if_neg Bool.false_ne_true] at h
    cases hd : decodeWord (s.fetch16 s.pc.toNat) with
    | ok i =>
      rw [hd] at h
      exact .inr (.inl ⟨rfl, i, rfl, h⟩)
    | error e =>
      rw [hd] at h
      cases h
      exact .inr (.inr ⟨rfl, e, rfl, rfl⟩)

/-- What CALL can do (R112). -/
theorem execCall_cases {nnn : Addr} {s t : State} (h : exec (.call nnn) s = .next t) :
    (s.sp.val = 16 ∧ t = s.raiseFault .stackOverflow s.pc (encode (.call nnn))) ∨
    (s.sp.val < 16 ∧ t = (s.push (s.pc + 2)).setPc (extendAddr nnn)) := by
  simp only [exec, execCall] at h
  split at h
  · next hsp =>
    cases h
    exact .inl ⟨hsp, rfl⟩
  · next hsp =>
    cases h
    have := s.sp.isLt
    have hsp : ¬ s.sp.val = 16 := hsp
    exact .inr ⟨by omega, rfl⟩

/-- What RET can do (R110). -/
theorem execRet_cases {s t : State} (h : exec .ret s = .next t) :
    (s.sp.val = 0 ∧ t = s.raiseFault .stackUnderflow s.pc (encode .ret)) ∨
    (0 < s.sp.val ∧ t = s.pop.setPc s.top) := by
  simp only [exec, execRet] at h
  split at h
  · next hsp =>
    cases h
    exact .inl ⟨by rw [hsp]; rfl, rfl⟩
  · next hsp =>
    cases h
    exact .inr ⟨Nat.pos_of_ne_zero fun h0 => hsp (Fin.ext h0), rfl⟩

/-- What LD_VX_K can do (R183). -/
theorem execLdVxK_cases {x : Reg} {s t : State} (h : exec (.ldVxK x) s = .next t) :
    (∃ k, s.firstPressed = some k ∧ t = (s.writeV x (k.setWidth 8)).advancePc) ∨
    (s.firstPressed = none ∧ t = s) := by
  simp only [exec, execLdVxK] at h
  cases hk : s.firstPressed with
  | some k =>
    rw [hk] at h
    cases h
    exact .inl ⟨k, rfl, rfl⟩
  | none =>
    rw [hk] at h
    cases h
    exact .inr ⟨rfl, rfl⟩

/-- No handler touches the latch but CALL and RET when they fault (R201). -/
theorem exec_fault_cases {i : Instr} {s t : State} (h : exec i s = .next t) :
    t.fault = s.fault ∨
    (∃ nnn, i = .call nnn ∧ s.sp.val = 16 ∧ t = s.raiseFault .stackOverflow s.pc (encode i)) ∨
    (i = .ret ∧ s.sp.val = 0 ∧ t = s.raiseFault .stackUnderflow s.pc (encode i)) := by
  cases i with
  | call nnn =>
    rcases execCall_cases h with ⟨hsp, rfl⟩ | ⟨_, rfl⟩
    · exact .inr (.inl ⟨nnn, rfl, hsp, rfl⟩)
    · exact .inl rfl
  | ret =>
    rcases execRet_cases h with ⟨hsp, rfl⟩ | ⟨_, rfl⟩
    · exact .inr (.inr ⟨rfl, hsp, rfl⟩)
    · exact .inl rfl
  | ldVxK x =>
    rcases execLdVxK_cases h with ⟨_, _, rfl⟩ | ⟨_, rfl⟩
    · exact .inl rfl
    · exact .inl rfl
  | ldB x => cases h; exact .inl (by simp)
  | stRegs x => cases h; exact .inl (by simp)
  | ldRegs x => cases h; exact .inl (by simp)
  | _ => cases h; exact .inl rfl

/-- Every handler keeps memory in canonical form. -/
theorem exec_mem_wf {i : Instr} {s t : State} (h : exec i s = .next t) (hm : s.mem.wf = true) : t.mem.wf = true := by
  cases i with
  | call nnn => rcases execCall_cases h with ⟨_, rfl⟩ | ⟨_, rfl⟩ <;> exact hm
  | ret => rcases execRet_cases h with ⟨_, rfl⟩ | ⟨_, rfl⟩ <;> exact hm
  | ldVxK x => rcases execLdVxK_cases h with ⟨_, _, rfl⟩ | ⟨_, rfl⟩ <;> exact hm
  | ldB x => cases h; exact s.memWriteList_wf _ _ hm
  | stRegs x => cases h; exact s.storeRegisters_wf _ hm
  | ldRegs x => cases h; simpa using hm
  | _ => cases h; exact hm

end Sys2Proof.Machine
end

