-- ==== Sys2Proof/Tests/Slice0.lean ====
section
/-! SUPPORT. The model's own tests. Every expected value is one of spec/95_test_vectors.md (its number is named) or
is worked out from a bit pattern of spec/30_encoding.md; none was taken from the model. -/

namespace Sys2Proof.Tests

open Sys2Proof.Machine

/-! ### Well-formed words, and decoding -/

/-- A word that must be refused: ill formed by the opcode map, and no instruction to the decoder. -/
def refusedWord (w : Word) : Bool := !wellFormedWord w && (decodeFields w).isNone

/-- Illegal words, one for each check of the opcode map (R85 to R89; vectors F10c, F11c, A16, A16b, K10, M7, X3). -/
theorem test_illFormed_fixed : refusedWord 0x0000 = true ∧ refusedWord 0x00E1 = true ∧ refusedWord 0x01EE = true := by
  decide
theorem test_illFormed_seReg : refusedWord 0x5341 = true := by decide
theorem test_illFormed_alu : refusedWord 0x8128 = true ∧ refusedWord 0x812F = true ∧ refusedWord 0x812D = true := by
  decide
theorem test_illFormed_sneReg : refusedWord 0x934F = true := by decide
theorem test_illFormed_skips : refusedWord 0xE19F = true ∧ refusedWord 0xE1A0 = true := by decide
theorem test_illFormed_familyF : refusedWord 0xF100 = true ∧ refusedWord 0xF166 = true := by decide

/-- Fewer than two bytes are no instruction. -/
theorem test_decodeBytes_truncated : decodeBytes [0x60] = .error .truncated := by decide

/-- The first of two bytes is the more significant, and the rest of the list is given back (R53). -/
theorem test_decodeBytes_order : decodeBytes [0x6A, 0x02, 0x7A] = .ok (.ldImm 0xA 0x02, [0x7A]) := by decide

/-- The opcode table's numbering: bit 0 is the least significant bit of the one word. -/
theorem test_decodeTableWord : decodeTableWord 16 0x6A02 = some (.ldImm 0xA 0x02) := by decide

/-! One word for every instruction, nibble by nibble from the patterns of R84 to R89. -/

theorem test_decode_cls : decodeWord 0x00E0#16 = .ok (.cls) := by decide
theorem test_decode_ret : decodeWord 0x00EE#16 = .ok (.ret) := by decide
theorem test_decode_jp : decodeWord 0x1ABC#16 = .ok (.jp 0xABC) := by decide
theorem test_decode_call : decodeWord 0x2ABC#16 = .ok (.call 0xABC) := by decide
theorem test_decode_seImm : decodeWord 0x3A5C#16 = .ok (.seImm 0xA 0x5C) := by decide
theorem test_decode_sneImm : decodeWord 0x4A5C#16 = .ok (.sneImm 0xA 0x5C) := by decide
theorem test_decode_seReg : decodeWord 0x5AB0#16 = .ok (.seReg 0xA 0xB) := by decide
theorem test_decode_ldImm : decodeWord 0x6A5C#16 = .ok (.ldImm 0xA 0x5C) := by decide
theorem test_decode_addImm : decodeWord 0x7A5C#16 = .ok (.addImm 0xA 0x5C) := by decide
theorem test_decode_ldReg : decodeWord 0x8AB0#16 = .ok (.ldReg 0xA 0xB) := by decide
theorem test_decode_or : decodeWord 0x8AB1#16 = .ok (.or 0xA 0xB) := by decide
theorem test_decode_and : decodeWord 0x8AB2#16 = .ok (.and 0xA 0xB) := by decide
theorem test_decode_xor : decodeWord 0x8AB3#16 = .ok (.xor 0xA 0xB) := by decide
theorem test_decode_addReg : decodeWord 0x8AB4#16 = .ok (.addReg 0xA 0xB) := by decide
theorem test_decode_sub : decodeWord 0x8AB5#16 = .ok (.sub 0xA 0xB) := by decide
theorem test_decode_shr : decodeWord 0x8AB6#16 = .ok (.shr 0xA 0xB) := by decide
theorem test_decode_subn : decodeWord 0x8AB7#16 = .ok (.subn 0xA 0xB) := by decide
theorem test_decode_shl : decodeWord 0x8ABE#16 = .ok (.shl 0xA 0xB) := by decide
theorem test_decode_sneReg : decodeWord 0x9AB0#16 = .ok (.sneReg 0xA 0xB) := by decide
theorem test_decode_ldI : decodeWord 0xAABC#16 = .ok (.ldI 0xABC) := by decide
theorem test_decode_jpV0 : decodeWord 0xBABC#16 = .ok (.jpV0 0xABC) := by decide
theorem test_decode_rnd : decodeWord 0xCA5C#16 = .ok (.rnd 0xA 0x5C) := by decide
theorem test_decode_drw : decodeWord 0xDAB7#16 = .ok (.drw 0xA 0xB 0x7) := by decide
theorem test_decode_skp : decodeWord 0xEA9E#16 = .ok (.skp 0xA) := by decide
theorem test_decode_sknp : decodeWord 0xEAA1#16 = .ok (.sknp 0xA) := by decide
theorem test_decode_ldVxDt : decodeWord 0xFA07#16 = .ok (.ldVxDt 0xA) := by decide
theorem test_decode_ldVxK : decodeWord 0xFA0A#16 = .ok (.ldVxK 0xA) := by decide
theorem test_decode_ldDtVx : decodeWord 0xFA15#16 = .ok (.ldDtVx 0xA) := by decide
theorem test_decode_ldStVx : decodeWord 0xFA18#16 = .ok (.ldStVx 0xA) := by decide
theorem test_decode_addI : decodeWord 0xFA1E#16 = .ok (.addI 0xA) := by decide
theorem test_decode_ldF : decodeWord 0xFA29#16 = .ok (.ldF 0xA) := by decide
theorem test_decode_ldB : decodeWord 0xFA33#16 = .ok (.ldB 0xA) := by decide
theorem test_decode_stRegs : decodeWord 0xFA55#16 = .ok (.stRegs 0xA) := by decide
theorem test_decode_ldRegs : decodeWord 0xFA65#16 = .ok (.ldRegs 0xA) := by decide

/-! ### One step of each instruction -/

/-- Reset, with the program counter, I and some registers set. -/
def start (pc i : Word) (regs : List (Reg × Byte)) : State :=
  regs.foldl (fun s r => s.writeV r.1 r.2) ((State.reset.setPc pc).setI i)

/-- One step of the word `w`, placed at `pc`, leaves each part of the list at its number. -/
def after (s : State) (w : Nat) (expected : List (Part × Nat)) : Bool :=
  match step (s.withFetchWord 16 w) with
  | .next t => expected.all fun e => t.observe e.1 == e.2
  | _ => false

/-- A state with one key pressed, or two. -/
def pressed (s : State) (a b : Nat) : State := s.setKeys (Vector.ofFn fun k : Fin 16 => k.val == a || k.val == b)

/-- Vector F1. -/
theorem test_ret : after { (start 0x020C 0 []) with sp := 1, stack := State.reset.stack.set 0 0x0206 } 0x00EE
    [(.stackPointer, 0x00), (.pc, 0x206), (.stackEntry 0, 0x206)] = true := by decide

/-- Vector F2. -/
theorem test_ret_underflow : after (start 0x0200 0x0000 []) 0x00EE
    [(.faultCode, 0x03), (.faultPc, 0x200), (.faultInstr, 0xEE), (.pc, 0x200), (.stackPointer, 0x00)] = true := by decide

/-- Vector F3. -/
theorem test_jp : after (start 0x020A 0x0000 []) 0x1204
    [(.pc, 0x204), (.faultCode, 0x00)] = true := by decide

/-- Vector F3c. -/
theorem test_jp_odd : after (start 0x0200 0x0000 []) 0x1201
    [(.pc, 0x201), (.faultCode, 0x00)] = true := by decide

/-- Vector F5. -/
theorem test_call_last : after { (start 0x0200 0 []) with sp := 15 } 0x2300
    [(.stackEntry 15, 0x202), (.stackPointer, 0x10), (.pc, 0x300)] = true := by decide

/-- Vector F6. -/
theorem test_call_overflow : after { (start 0x0200 0 []) with sp := 16 } 0x2300
    [(.faultCode, 0x02), (.faultPc, 0x200), (.faultInstr, 0x2300), (.stackPointer, 0x10), (.pc, 0x200), (.stackEntry 15, 0x00)] = true := by decide

/-- Vector F8c. -/
theorem test_seImm : after (start 0xFFFE 0x0000 [(0x1, 0x00)]) 0x3100
    [(.pc, 0x02)] = true := by decide

/-- Vector F8b. -/
theorem test_seImm_not : after (start 0x0208 0x0000 [(0x1, 0x01)]) 0x3100
    [(.pc, 0x20A)] = true := by decide

/-- Vector F9. -/
theorem test_sneImm : after (start 0x0300 0x0000 [(0x2, 0x05)]) 0x4206
    [(.pc, 0x304)] = true := by decide

/-- Vector F9b. -/
theorem test_sneImm_not : after (start 0x0300 0x0000 [(0x2, 0x05)]) 0x4205
    [(.pc, 0x302)] = true := by decide

/-- Vector F10. -/
theorem test_seReg : after (start 0x0210 0x0000 [(0x3, 0x7F), (0x4, 0x7F)]) 0x5340
    [(.pc, 0x214)] = true := by decide

/-- Vector F10c. -/
theorem test_seReg_illegal : after (start 0x0200 0x0000 []) 0x5341
    [(.faultCode, 0x01), (.faultPc, 0x200), (.faultInstr, 0x5341), (.pc, 0x200)] = true := by decide

/-- Vector F11. -/
theorem test_sneReg : after (start 0x0210 0x0000 [(0x3, 0x01), (0x4, 0x02)]) 0x9340
    [(.pc, 0x214)] = true := by decide

/-- Vector F11b. -/
theorem test_sneReg_not : after (start 0x0210 0x0000 [(0x3, 0x01), (0x4, 0x01)]) 0x9340
    [(.pc, 0x212)] = true := by decide

/-- Vector F12c. -/
theorem test_jpV0 : after (start 0x0200 0x0000 [(0x0, 0xFF)]) 0xBFFF
    [(.pc, 0x10FE)] = true := by decide

/-- Vector A1b: VF is written as any register. -/
theorem test_ldImm : after (start 0x0200 0x0000 []) 0x6FAB
    [(.reg 0xF, 0xAB), (.pc, 0x202)] = true := by decide

/-- Vector A2b: no carry flag. -/
theorem test_addImm : after (start 0x0200 0x0000 [(0x1, 0xFF)]) 0x7101
    [(.reg 0x1, 0x00), (.reg 0xF, 0x00), (.pc, 0x202)] = true := by decide

/-- Vector A3. -/
theorem test_ldReg : after (start 0x0200 0x0000 [(0x2, 0x3C)]) 0x8120
    [(.reg 0x1, 0x3C), (.reg 0x2, 0x3C), (.pc, 0x202)] = true := by decide

/-- Vector A4. -/
theorem test_or : after (start 0x0200 0x0000 [(0x1, 0xF0), (0x2, 0x0F), (0xF, 0x01)]) 0x8121
    [(.reg 0x1, 0xFF), (.reg 0xF, 0x01)] = true := by decide

/-- Vector A5. -/
theorem test_and : after (start 0x0200 0x0000 [(0x1, 0xF0), (0x2, 0x3C), (0xF, 0x01)]) 0x8122
    [(.reg 0x1, 0x30), (.reg 0xF, 0x01)] = true := by decide

/-- Vector A6. -/
theorem test_xor : after (start 0x0200 0x0000 [(0x1, 0xF0), (0x2, 0x3C), (0xF, 0x01)]) 0x8123
    [(.reg 0x1, 0xCC), (.reg 0xF, 0x01)] = true := by decide

/-- Vector A7. -/
theorem test_addReg : after (start 0x0200 0x0000 [(0x1, 0xC8), (0x2, 0x64)]) 0x8124
    [(.reg 0x1, 0x2C), (.reg 0xF, 0x01), (.pc, 0x202)] = true := by decide

/-- Vector A9: the flag is written last. -/
theorem test_addReg_VF : after (start 0x0200 0x0000 [(0xF, 0xFF), (0x1, 0x01)]) 0x8F14
    [(.reg 0xF, 0x01), (.reg 0x1, 0x01)] = true := by decide

/-- Vector A11. -/
theorem test_sub : after (start 0x0200 0x0000 [(0x1, 0x05), (0x2, 0x0A)]) 0x8125
    [(.reg 0x1, 0xFB), (.reg 0xF, 0x00)] = true := by decide

/-- Vector A11c. -/
theorem test_sub_equal : after (start 0x0200 0x0000 [(0x1, 0x42), (0x2, 0x42)]) 0x8125
    [(.reg 0x1, 0x00), (.reg 0xF, 0x01)] = true := by decide

/-- Vector A12: Vy is ignored. -/
theorem test_shr : after (start 0x0200 0x0000 [(0x1, 0x05), (0x2, 0xEE)]) 0x8126
    [(.reg 0x1, 0x02), (.reg 0xF, 0x01), (.reg 0x2, 0xEE)] = true := by decide

/-- Vector A12e. -/
theorem test_shr_VF : after (start 0x0200 0x0000 [(0xF, 0x02)]) 0x8F06
    [(.reg 0xF, 0x00)] = true := by decide

/-- Vector A13b. -/
theorem test_subn : after (start 0x0200 0x0000 [(0x1, 0x0A), (0x2, 0x05)]) 0x8127
    [(.reg 0x1, 0xFB), (.reg 0xF, 0x00)] = true := by decide

/-- Vector A13c. -/
theorem test_subn_equal : after (start 0x0200 0x0000 [(0x1, 0x07), (0x2, 0x07)]) 0x8127
    [(.reg 0x1, 0x00), (.reg 0xF, 0x01)] = true := by decide

/-- Vector A14. -/
theorem test_shl : after (start 0x0200 0x0000 [(0x1, 0x81)]) 0x810E
    [(.reg 0x1, 0x02), (.reg 0xF, 0x01)] = true := by decide

/-- Vector A14d. -/
theorem test_shl_VF : after (start 0x0200 0x0000 [(0xF, 0x80)]) 0x8F0E
    [(.reg 0xF, 0x01)] = true := by decide

/-- Vector M1. -/
theorem test_ldI : after (start 0x0200 0xFFFF []) 0xA300
    [(.index, 0x300), (.pc, 0x202)] = true := by decide

/-- Vector M2b: no flag at 0x1000. -/
theorem test_addI : after (start 0x0200 0x0FFF [(0x2, 0x01)]) 0xF21E
    [(.index, 0x1000), (.reg 0xF, 0x00)] = true := by decide

/-- Vector M2c. -/
theorem test_addI_wraps : after (start 0x0200 0xFFFF [(0x2, 0x01)]) 0xF21E
    [(.index, 0x00)] = true := by decide

/-- Vector M4. -/
theorem test_ldB : after (start 0x0200 0x0300 [(0x5, 0x9C)]) 0xF533
    [(.memByte 0x300, 0x01), (.memByte 0x301, 0x05), (.memByte 0x302, 0x06), (.index, 0x300), (.pc, 0x202)] = true := by decide

/-- Vector M4c. -/
theorem test_ldB_leading : after (start 0x0200 0x0300 [(0x5, 0x09)]) 0xF533
    [(.memByte 0x300, 0x00), (.memByte 0x301, 0x00), (.memByte 0x302, 0x09)] = true := by decide

/-- Vector M5. -/
theorem test_stRegs : after (start 0x0200 0x0400 [(0x0, 0x11), (0x1, 0x22), (0x2, 0x33), (0x3, 0x44)]) 0xF255
    [(.memByte 0x400, 0x11), (.memByte 0x401, 0x22), (.memByte 0x402, 0x33), (.memByte 0x403, 0x00), (.index, 0x400)] = true := by decide

/-- Vector M5d: I above 0xFFF aliases. -/
theorem test_stRegs_alias : after (start 0x0200 0x1400 [(0x0, 0xAA)]) 0xF055
    [(.memByte 0x400, 0xAA), (.index, 0x1400)] = true := by decide

/-- Vector M6. -/
theorem test_ldRegs : after ((start 0x0200 0x0300 [(0x3, 0x77)]).memWriteList 0x300 [0x01, 0x05, 0x06]) 0xF265
    [(.reg 0x0, 0x01), (.reg 0x1, 0x05), (.reg 0x2, 0x06), (.reg 0x3, 0x77), (.index, 0x300)] = true := by decide

/-- Vector M6b. -/
theorem test_ldRegs_all : after ((start 0x0200 0x0300 []).memWriteList 0x300 [0x01, 0x02, 0x03, 0x04, 0x05, 0x06, 0x07, 0x08, 0x09, 0x0A, 0x0B, 0x0C, 0x0D, 0x0E, 0x0F, 0x10]) 0xFF65
    [(.reg 0x0, 0x01), (.reg 0xE, 0x0F), (.reg 0xF, 0x10)] = true := by decide

/-- Vector P1. -/
theorem test_cls : after ((start 0x0200 0 [(0xF, 1)]).setFb ((Framebuffer.blank.flip 3 7).flip 31 63)) 0x00E0
    [(.pixel 3 7, 0x00), (.pixel 31 63, 0x00), (.reg 0xF, 0x01), (.pc, 0x202)] = true := by decide

/-- Vector P3: both edges. -/
theorem test_drw_wraps : after ((start 0x0200 0x0300 [(0x1, 0x3C), (0x2, 0x1F)]).memWriteList 0x300 [0xFF, 0x81]) 0xD122
    [(.pixel 31 60, 0x01), (.pixel 31 63, 0x01), (.pixel 31 0, 0x01), (.pixel 31 3, 0x01), (.pixel 31 4, 0x00), (.pixel 31 59, 0x00), (.pixel 0 60, 0x01), (.pixel 0 3, 0x01), (.pixel 0 61, 0x00), (.pixel 0 2, 0x00), (.reg 0xF, 0x00)] = true := by decide

/-- Vector P4c. -/
theorem test_drw_collision : after (((start 0x0200 0x0300 []).memWriteList 0x300 [0xC0]).setFb (Framebuffer.blank.flip 0 0)) 0xD121
    [(.pixel 0 0, 0x00), (.pixel 0 1, 0x01), (.reg 0xF, 0x01)] = true := by decide

/-- Vector K3: the index is taken modulo 16. -/
theorem test_skp : after (pressed (start 0x0220 0x0000 [(0x3, 0x15)]) 5 5) 0xE39E
    [(.pc, 0x224)] = true := by decide

/-- Vector K2. -/
theorem test_skp_not : after (start 0x0220 0x0000 [(0x3, 0x05)]) 0xE39E
    [(.pc, 0x222)] = true := by decide

/-- Vector K4. -/
theorem test_sknp : after (start 0x0220 0x0000 [(0x3, 0x05)]) 0xE3A1
    [(.pc, 0x224)] = true := by decide

/-- Vector K4b. -/
theorem test_sknp_not : after (pressed (start 0x0220 0x0000 [(0x3, 0x05)]) 5 5) 0xE3A1
    [(.pc, 0x222)] = true := by decide

/-- Vector K5. -/
theorem test_ldVxDt : after ((start 0x0200 0x0000 []).setDt 0x3C) 0xF407
    [(.reg 0x4, 0x3C), (.delayTimer, 0x3C), (.pc, 0x202)] = true := by decide

/-- Vector K6. -/
theorem test_ldVxK_waits : after (start 0x0200 0x0000 [(0x0, 0x77)]) 0xF00A
    [(.pc, 0x200), (.reg 0x0, 0x77)] = true := by decide

/-- Vector K6c. -/
theorem test_ldVxK_least : after (pressed (start 0x0200 0x0000 [(0x0, 0x77)]) 9 3) 0xF00A
    [(.pc, 0x202), (.reg 0x0, 0x03)] = true := by decide

/-- Vector K7. -/
theorem test_ldDtVx : after (start 0x0200 0x0000 [(0x4, 0x02)]) 0xF415
    [(.delayTimer, 0x02), (.soundTimer, 0x00), (.pc, 0x202)] = true := by decide

/-- Vector K8. -/
theorem test_ldStVx : after (start 0x0200 0x0000 [(0x4, 0x02)]) 0xF418
    [(.soundTimer, 0x02), (.delayTimer, 0x00), (.pc, 0x202)] = true := by decide

/-- Vector A15b: no bit of the draw is let through. What RND answers otherwise is free. -/
theorem test_rnd_zero (s t : State) (h : exec (.rnd 1 0x00) s = .next t) : t.readV 1 = 0 := by
  cases h
  simp

/-- Vectors M3, M3b, M3c, with the spec's default FONT_BASE. -/
theorem test_ldF_glyphAddress :
    glyphAddress Config.defaultFontBase 0x0A = 0x0082 ∧ glyphAddress Config.defaultFontBase 0x00 = 0x0050 ∧
    glyphAddress Config.defaultFontBase 0xFF = 0x054B := by
  decide

/-- LD_F points I at the glyph of Vx in the machine's own font table (R152). -/
theorem test_ldF_usesFontBase (s : State) : exec (.ldF 3) s =
    .next (s.setI (glyphAddress Config.fontBase.val (s.readV 3))).advancePc := rfl

/-- Vector M5c: the second address wraps to 0x000, where the font may lie. -/
theorem test_stRegs_wraps : ((start 0x0200 0x0FFF [(0, 0xAA), (1, 0xBB)]).storeRegisters 2).memRead 0x000 = 0xBB := by
  rw [((start 0x0200 0x0FFF [(0, 0xAA), (1, 0xBB)]).memRead_storeRegisters 2 (by decide) 0x000).2 1 (by decide) (by decide)]
  decide

/-- The default FONT_TABLE of R30 has 80 bytes; glyph 0 is F0 90 90 90 F0, as vector P10 draws it. -/
theorem test_defaultFontTable : Config.defaultFontTable.length = 80 ∧
    Config.defaultFontTable.take 5 = [0xF0, 0x90, 0x90, 0x90, 0xF0] := by
  decide

/-! ### Fetch, faults and the host -/

/-- Vector X2: an odd `pc` fetches the bytes at 0x201 and 0x202. -/
theorem test_fetch_odd : after (start 0x0201 0 []) 0x6107 [(.reg 1, 7), (.pc, 0x203)] = true := by decide

/-- Vector X3: from reset with nothing placed the first word is 0x0000, which is illegal. -/
theorem test_reset_illegal : step State.reset =
    .next { State.reset with fault := ⟨.illegalInstruction, 0x0200, 0x0000⟩ } := by
  rfl

/-- Vector X5: the timers tick on a halted core. -/
theorem test_tick_halted :
    ((State.reset.setDt 4).raiseFault .illegalInstruction 0x0200 0).timerTick.dt = 3 := by
  decide

/-- Vectors K7, K9: a tick takes 1, and 0 stays 0. -/
theorem test_tickTimer : tickTimer 3 = 2 ∧ tickTimer 1 = 0 ∧ tickTimer 0 = 0 := by decide

/-- Vector Z3: 3585 bytes are refused. -/
theorem test_romLoad_tooLarge : State.reset.romLoad (List.replicate 3585 0xAB) = .refused .romTooLarge := by
  rw [State.romLoad_eq, if_neg (by rw [List.length_replicate]; decide)]

/-- Vector Z4: an empty ROM is accepted and writes nothing. -/
theorem test_romLoad_empty : State.reset.romLoad [] = .next State.reset := by rfl

/-- A step before the ROM load is outside the host's contract (R216, R243). -/
theorem test_session_order : (Session.on .awaitingRom State.reset).move .step = .refused .moveNotAllowed := by rfl

/-- The memory that reset leaves is in canonical form. -/
theorem test_reset_memory_wf : State.reset.mem.wf = true := by decide

/-- Writing what an unlisted address reads as removes the entry, so that equal memories are equal data. -/
theorem test_memory_canonical : (State.reset.memWrite 0x300 7).memWrite 0x1300 0 = State.reset := by decide

/-! ### Witnesses: concrete states and operands that meet the hypotheses of each statement -/

/-- A running core with the word `w` at 0x200. -/
def ready (w : Nat) : State := State.reset.withFetchWord 16 w

/-- A core that an illegal word has halted. -/
def halted : State := State.reset.raiseFault .illegalInstruction 0x0200 0x0000

/-- The invariant holds of a running core in canonical memory whose latch is clear. -/
theorem inv_of_running (s : State) (hm : s.mem.wf = true) (hf : s.fault = FaultLatch.clear) : s.Inv := by
  refine ⟨hm, fun _ => hf, ?_, ?_, ?_, ?_⟩ <;> rw [hf]
  · exact fun h => absurd rfl h
  · exact nofun
  · exact nofun
  · exact nofun

theorem witness_ResetValues : Config.fontBase.val + 80 ≤ (0xFFF#12 : Addr).toNat := by
  have h := Config.fontBase.isLt
  have h' : (0xFFF#12 : Addr).toNat = 4095 := rfl
  omega

theorem witness_StepKeepsInvariant : (ready 0x6A02).Inv ∧ ∃ t, step (ready 0x6A02) = .next t :=
  ⟨inv_of_running _ (by decide) rfl, _, rfl⟩

/-- The invariant also holds of a halted core (the case that keeps the latch as it is). -/
theorem witness_StepKeepsInvariant_halted : halted.Inv :=
  ⟨by decide, nofun, fun _ => ⟨by decide, by decide⟩, fun _ => by decide, nofun, nofun⟩

theorem witness_StepRunsTheDecodedInstruction : (ready 0x6A02).halted = false ∧
    decodeWord ((ready 0x6A02).fetch16 (ready 0x6A02).pc.toNat) = .ok (.ldImm 0xA 0x02) := by
  decide

/-- The other two clauses: a halted core, and an illegal word on a running one. -/
theorem witness_StepRunsTheDecodedInstruction_others : halted.halted = true ∧ State.reset.halted = false ∧
    decodeWord (State.reset.fetch16 State.reset.pc.toNat) = .error (.unrecognized 0x0000) := by
  decide

theorem witness_IllegalWordHalts : State.reset.halted = false ∧
    decodeWord (State.reset.fetch16 State.reset.pc.toNat) = .error (.unrecognized 0x0000) := by
  decide

theorem witness_HaltedCoreStaysHalted : halted.halted = true ∧
    ∃ t r, (Session.on .running halted).move .init = .next (.on .awaitingRom t, r) ∧ t.halted = false :=
  ⟨by decide, _, _, rfl, rfl⟩

theorem witness_HaltedRunsStay : halted.halted = true := by decide

theorem witness_RunEndingUnhaltedWasSafe : ∃ t, core.run 1 (ready 0x6A02) = .next t ∧ t.halted = false :=
  ⟨_, rfl, by decide⟩

/-- The cause of each fault can be met. -/
theorem witness_FaultCauses_illegal : ∃ t, step State.reset = .next t ∧ t.fault.code = .illegalInstruction :=
  ⟨_, rfl, by decide⟩

theorem witness_FaultCauses_overflow :
    ∃ t, step { ready 0x2300 with sp := 16 } = .next t ∧ t.fault.code = .stackOverflow :=
  ⟨_, rfl, by decide⟩

theorem witness_FaultCauses_underflow : ∃ t, step (ready 0x00EE) = .next t ∧ t.fault.code = .stackUnderflow :=
  ⟨_, rfl, by decide⟩

theorem witness_FaultsArePrecise : State.reset.halted = false ∧ ∃ t, step State.reset = .next t ∧ t.halted = true :=
  ⟨by decide, _, rfl, by decide⟩

theorem witness_EncodeOfDecode : decodeWord 0x6A02 = .ok (.ldImm 0xA 0x02) := by decide

theorem witness_OpcodeRowsDoNotOverlap :
    (opcodeRows[6]?.map fun r => r.covers 0x6A02) = some true := by
  decide

/-- A stack of one entry and a full one; an empty one is the reset state's. -/
theorem witness_RetPopsOrUnderflows : 0 < { State.reset with sp := 1 }.sp.val ∧
    0 < { State.reset with sp := 16 }.sp.val ∧ State.reset.sp.val = 0 := by
  decide

/-- The last free entry, and a full stack. -/
theorem witness_CallPushesOrOverflows : { State.reset with sp := 15 }.sp.val < 16 ∧ State.reset.sp.val < 16 ∧
    { State.reset with sp := 16 }.sp.val = 16 := by
  decide

theorem witness_CallThenRetReturns : { State.reset with sp := 15 }.sp.val < 16 := by decide

theorem witness_ProgramCounterRule_advances :
    (∃ t, exec (.ldImm 1 2) State.reset = .next t) ∧ alwaysAdvances (.ldImm 1 2) = true :=
  ⟨⟨_, rfl⟩, rfl⟩

theorem witness_ProgramCounterRule_skips :
    (∃ t, exec (.seImm 1 2) State.reset = .next t) ∧ isSkip (.seImm 1 2) = true :=
  ⟨⟨_, rfl⟩, rfl⟩

theorem witness_ProgramCounterRule_faults : ∃ t, exec .ret State.reset = .next t ∧ t.fault ≠ State.reset.fault :=
  ⟨_, rfl, by decide⟩

/-- The result of an ALU instruction is asked for registers that are not VF, and each flag case is met. -/
theorem witness_AddWithCarryOut : (1#4 : Reg) ≠ 0xF#4 ∧ (0xFF#8).toNat + (0x01#8).toNat > 255 ∧
    ¬ (0xFF#8).toNat + (0x00#8).toNat > 255 := by
  decide

theorem witness_SubtractionsWithNotBorrowOut : (1#4 : Reg) ≠ 0xF#4 ∧ (0x42#8).toNat ≥ (0x42#8).toNat ∧
    ¬ (0x00#8).toNat ≥ (0x01#8).toNat := by
  decide

theorem witness_ShiftsInPlace : (1#4 : Reg) ≠ 0xF#4 := by decide

theorem witness_OnlyRndReadsTheDraws :
    (∀ x kk, Instr.cls ≠ .rnd x kk) ∧ ∃ t, exec .cls State.reset = .next t :=
  ⟨nofun, _, rfl⟩

theorem witness_RegistersStored : (0xF#4 : Reg).toNat ≤ (0xF#4 : Reg).toNat := by decide

theorem witness_RegistersLoaded : (0x0#4 : Reg).toNat ≤ (0x0#4 : Reg).toNat := by decide

theorem witness_StoreThenLoadRestoresRegisters : ∃ t u : State, exec (.stRegs 2) State.reset = .next t ∧
    u.mem = t.mem ∧ u.i = State.reset.i ∧ u.readV 0 ≠ State.reset.readV 0 := by
  refine ⟨_, (State.reset.storeRegisters 3).writeV 0 7, rfl, rfl, ?_⟩
  simp
  decide

theorem witness_StoreIsSeenByTheNextFetch : (∃ t, exec (.stRegs 1) (State.reset.setI 0x1202) = .next t) ∧
    1 ≤ (1#4 : Reg).toNat ∧ SameAddress (State.reset.setI 0x1202).i ((State.reset.setI 0x1202).pc + 2) :=
  ⟨⟨_, rfl⟩, by decide, by unfold SameAddress; decide⟩

theorem witness_CanonicalMemoryIsUnique : Memory.wf [(0x300, 1)] = true := by decide

theorem witness_UpperAddressBitsAreUnobservable : SameToPrograms (ready 0x6A02) ((ready 0x6A02).setI 0xF000) ∧
    (ready 0x6A02).i ≠ ((ready 0x6A02).setI 0xF000).i ∧ ∃ t, step (ready 0x6A02) = .next t := by
  refine ⟨⟨rfl, ?_, rfl, fun _ => rfl, rfl, rfl, rfl, rfl, rfl, rfl, rfl, rfl, rfl, rfl⟩, by decide, _, rfl⟩
  unfold SameAddress
  decide

/-- A sprite bit on a set pixel. -/
def colliding : State :=
  ((State.reset.setI 0x300).memWrite 0x300 0x80).setFb (Framebuffer.blank.flip 0 0)

theorem witness_DrawSprite_collides :
    ∃ r c, spriteBitAt colliding 1 2 1 r c = true ∧ colliding.fb.pixel r c = true :=
  ⟨0, 0, by decide, by decide⟩

theorem witness_DrawSprite_misses :
    ∀ r c, spriteBitAt State.reset 1 2 0 r c = true → State.reset.fb.pixel r c = false := by
  intro r c h
  simp [spriteBitAt] at h

theorem witness_DrawingTwiceRestores : ∃ t, exec (.drw 1 2 1) colliding = .next t ∧
    t.readV 1 = colliding.readV 1 ∧ t.readV 2 = colliding.readV 2 :=
  ⟨_, rfl, by decide, by decide⟩

theorem witness_DrawingTwiceRestores_zeros : (∃ t, exec (.drw 1 2 1) (State.reset.setI 0x300) = .next t) ∧
    ∀ j < (1#4 : Nibble).toNat, (State.reset.setI 0x300).memRead ((State.reset.setI 0x300).i.toNat + j) = 0 :=
  ⟨⟨_, rfl⟩, by decide⟩

/-- The least key, the greatest, and none. -/
theorem witness_KeyWait : (pressed State.reset 0 15).keyPressed 0 = true ∧
    (∀ j : Nibble, j < 0 → (pressed State.reset 0 15).keyPressed j = false) ∧
    (pressed State.reset 15 15).keyPressed 15 = true ∧
    (∀ j : Nibble, j < 15 → (pressed State.reset 15 15).keyPressed j = false) ∧
    ∀ k, State.reset.keyPressed k = false := by
  decide

theorem witness_OnlyKeyInstructionsReadTheKeys :
    (∀ x, Instr.cls ≠ .skp x ∧ Instr.cls ≠ .sknp x ∧ Instr.cls ≠ .ldVxK x) ∧ ∃ t, exec .cls State.reset = .next t :=
  ⟨fun _ => ⟨nofun, nofun, nofun⟩, _, rfl⟩

theorem witness_NoInstructionReadsTheSoundTimer : ∃ t, exec (.ldStVx 1) State.reset = .next t := ⟨_, rfl⟩

theorem witness_WritersOfState_instruction : ∃ t, exec (.ldImm 1 2) State.reset = .next t ∧
    t.observe (.reg 1) ≠ State.reset.observe (.reg 1) :=
  ⟨_, rfl, by decide⟩

theorem witness_WritersOfState_romLoad : ∃ t, State.reset.romLoad [1] = .next t := ⟨_, rfl⟩

/-- The longest ROM that is accepted, and the shortest that is refused. -/
theorem witness_RomLoadCopiesOrRefuses :
    (List.replicate 3584 (0xAB : Byte)).length ≤ 3584 ∧ 3584 < (List.replicate 3585 (0xAB : Byte)).length := by
  rw [List.length_replicate, List.length_replicate]
  decide

theorem witness_InitializeResetsEverything : Part.pc ≠ .draws := by decide

theorem witness_NoStepBeforeRomLoad :
    (∃ t, Session.moves .off [.init, .romLoad [0x6A, 0x02], .step] = .next t) ∧
    HostMove.step ∈ [HostMove.init, .romLoad [0x6A, 0x02], .step] :=
  ⟨⟨_, rfl⟩, by decide⟩

theorem witness_HostMovesKeepInvariant : (Session.on .running (ready 0x6A02)).Inv ∧
    ∃ t' r, (Session.on .running (ready 0x6A02)).move .step = .next (t', r) :=
  ⟨⟨inv_of_running _ (by decide) rfl, fun h => absurd rfl h⟩, _, _, rfl⟩

theorem witness_EndOfRunLoopsInPlace : (ready 0x1200).endOfRun = true := by decide

end Sys2Proof.Tests
end

section
/-! PROOFS. The decoder loses nothing: a word that decodes is the encoding of its instruction (spec/30_encoding.md
R96). The latch needs it, since CALL and RET record the encoding of their own instruction (R201). -/

namespace Sys2Proof

section
variable {w : Word} {op n : Nibble} {kk : Byte}

theorem encodeNNN_of_opField (hop : opField w = op) : encodeNNN op (nnnField w) = w := by
  rw [← hop, encodeNNN_fields]

theorem encodeXKK_of_opField (hop : opField w = op) : encodeXKK op (xField w) (kkField w) = w := by
  rw [← hop, encodeXKK_fields]

theorem encodeXYN_of_opField (hop : opField w = op) : encodeXYN op (xField w) (yField w) (nField w) = w := by
  rw [← hop, encodeXYN_fields]

theorem encodeXYN_of_opField_nField (hop : opField w = op) (hn : nField w = n) :
    encodeXYN op (xField w) (yField w) n = w := by
  rw [← hn, encodeXYN_of_opField hop]

end

/-! Each family's table, read backwards row by row: the instruction it gives encodes to the
fields it was selected by. -/

theorem encode_of_decodeFamily0 {w : Word} {i : Instr} (h : decodeFamily0 w = some i) : encode i = w := by
  unfold decodeFamily0 at h
  iterate 2
    obtain ⟨rfl, ⟨⟩⟩ | ⟨-, h⟩ := ite_eq_iff.mp h
    · rfl
  cases h

theorem encode_of_decodeFamily8 {n : Nibble} {x y : Reg} {i : Instr} (h : decodeFamily8 n x y = some i) :
    encode i = encodeXYN 0x8 x y n := by
  unfold decodeFamily8 at h
  iterate 9
    obtain ⟨rfl, ⟨⟩⟩ | ⟨-, h⟩ := ite_eq_iff.mp h
    · rfl
  cases h

theorem encode_of_decodeFamilyE {kk : Byte} {x : Reg} {i : Instr} (h : decodeFamilyE kk x = some i) :
    encode i = encodeXKK 0xE x kk := by
  unfold decodeFamilyE at h
  iterate 2
    obtain ⟨rfl, ⟨⟩⟩ | ⟨-, h⟩ := ite_eq_iff.mp h
    · rfl
  cases h

theorem encode_of_decodeFamilyF {kk : Byte} {x : Reg} {i : Instr} (h : decodeFamilyF kk x = some i) :
    encode i = encodeXKK 0xF x kk := by
  unfold decodeFamilyF at h
  iterate 9
    obtain ⟨rfl, ⟨⟩⟩ | ⟨-, h⟩ := ite_eq_iff.mp h
    · rfl
  cases h

/-- The opcode map read backwards: one case per family nibble (R84). -/
theorem encode_of_decodeFields {w : Word} {i : Instr} (h : decodeFields w = some i) : encode i = w := by
  unfold decodeFields at h
  obtain ⟨h0, h⟩ | ⟨h0, h⟩ := ite_eq_iff.mp h
  · exact encode_of_decodeFamily0 h
  obtain ⟨h1, h⟩ | ⟨h1, h⟩ := ite_eq_iff.mp h
  · cases h; exact encodeNNN_of_opField h1
  obtain ⟨h2, h⟩ | ⟨h2, h⟩ := ite_eq_iff.mp h
  · cases h; exact encodeNNN_of_opField h2
  obtain ⟨h3, h⟩ | ⟨h3, h⟩ := ite_eq_iff.mp h
  · cases h; exact encodeXKK_of_opField h3
  obtain ⟨h4, h⟩ | ⟨h4, h⟩ := ite_eq_iff.mp h
  · cases h; exact encodeXKK_of_opField h4
  obtain ⟨h5, h⟩ | ⟨h5, h⟩ := ite_eq_iff.mp h
  · obtain ⟨hn, h⟩ | ⟨_, h⟩ := ite_eq_iff.mp h <;> cases h
    exact encodeXYN_of_opField_nField h5 hn
  obtain ⟨h6, h⟩ | ⟨h6, h⟩ := ite_eq_iff.mp h
  · cases h; exact encodeXKK_of_opField h6
  obtain ⟨h7, h⟩ | ⟨h7, h⟩ := ite_eq_iff.mp h
  · cases h; exact encodeXKK_of_opField h7
  obtain ⟨h8, h⟩ | ⟨h8, h⟩ := ite_eq_iff.mp h
  · exact (encode_of_decodeFamily8 h).trans (encodeXYN_of_opField h8)
  obtain ⟨h9, h⟩ | ⟨h9, h⟩ := ite_eq_iff.mp h
  · obtain ⟨hn, h⟩ | ⟨_, h⟩ := ite_eq_iff.mp h <;> cases h
    exact encodeXYN_of_opField_nField h9 hn
  obtain ⟨hA, h⟩ | ⟨hA, h⟩ := ite_eq_iff.mp h
  · cases h; exact encodeNNN_of_opField hA
  obtain ⟨hB, h⟩ | ⟨hB, h⟩ := ite_eq_iff.mp h
  · cases h; exact encodeNNN_of_opField hB
  obtain ⟨hC, h⟩ | ⟨hC, h⟩ := ite_eq_iff.mp h
  · cases h; exact encodeXKK_of_opField hC
  obtain ⟨hD, h⟩ | ⟨hD, h⟩ := ite_eq_iff.mp h
  · cases h; exact encodeXYN_of_opField hD
  obtain ⟨hE, h⟩ | ⟨hE, h⟩ := ite_eq_iff.mp h
  · exact (encode_of_decodeFamilyE h).trans (encodeXKK_of_opField hE)
  have hF : opField w = 0xF := by bv_omega
  exact (encode_of_decodeFamilyF h).trans (encodeXKK_of_opField hF)

/-- A word that decodes is the encoding of its instruction (R96). -/
theorem encode_of_decodeWord_ok {w : Word} {i : Instr} (h : decodeWord w = .ok i) : encode i = w :=
  encode_of_decodeFields ((decodeWord_ok_iff w i).mp h)

end Sys2Proof
end

section
/-! PROOFS. The machine's invariant: what establishes it, and that every step keeps it. -/

namespace Sys2Proof.Machine

namespace State

/-- A core with a clear latch meets the invariant as soon as memory is canonical: every other clause speaks of a
halted core. -/
theorem Inv.of_clear {s : State} (hm : s.mem.wf = true) (hf : s.fault = FaultLatch.clear) : s.Inv where
  memory := hm
  running _ := hf
  halted h := absurd (by rw [hf]; rfl) h
  illegal h := by rw [hf] at h; cases h
  overflow h := by rw [hf] at h; cases h
  underflow h := by rw [hf] at h; cases h

/-- The latch of a core that is not halted is clear (R32). -/
theorem Inv.fault_eq_clear {s : State} (hs : s.Inv) (hr : s.halted = false) : s.fault = FaultLatch.clear :=
  hs.running (s.halted_eq_false_iff.mp hr)

/-- The invariant reads memory, the latch, `pc` and `SP` only. -/
theorem Inv.congr {s t : State} (hs : s.Inv) (hmem : t.mem = s.mem) (hfault : t.fault = s.fault) (hpc : t.pc = s.pc)
    (hsp : t.sp = s.sp) : t.Inv := by
  obtain ⟨memory, running, halted, illegal, overflow, underflow⟩ := hs
  constructor <;> simpa only [hmem, hfault, hpc, hsp, fetch16_congr hmem]

end State

/-- A handler that runs on the instruction at `pc` keeps the invariant: it leaves the latch clear, or it is the CALL
or the RET whose fault the latch then records (R203, R204). -/
theorem exec_keeps_inv {i : Instr} {s t : State} (hs : s.Inv) (hr : s.halted = false)
    (hd : decodeWord (s.fetch16 s.pc.toNat) = .ok i) (he : exec i s = .next t) : t.Inv := by
  have hw : encode i = s.fetch16 s.pc.toNat := encode_of_decodeWord_ok hd
  rcases exec_fault_cases he with hf | ⟨nnn, rfl, hsp, rfl⟩ | ⟨rfl, hsp, rfl⟩
  · exact .of_clear (exec_mem_wf he hs.memory) (hf.trans (hs.fault_eq_clear hr))
  · exact ⟨hs.memory, nofun, fun _ => ⟨rfl, hw⟩, nofun, fun _ => ⟨hsp, nnn, rfl⟩, nofun⟩
  · exact ⟨hs.memory, nofun, fun _ => ⟨rfl, hw⟩, nofun, nofun, fun _ => ⟨hsp, rfl⟩⟩

/-- Every step keeps the invariant (R205, R206). -/
theorem step_keeps_inv {s t : State} (hs : s.Inv) (h : step s = .next t) : t.Inv := by
  rcases step_cases h with ⟨_, rfl⟩ | ⟨hr, i, hd, he⟩ | ⟨_, e, hd, rfl⟩
  · exact hs
  · exact exec_keeps_inv hs hr hd he
  · have hnone := ((decodeWord_error_iff _ _).mp hd).1
    exact ⟨hs.memory, nofun, fun _ => ⟨rfl, rfl⟩, fun _ => (decodeWord_error_iff _ _).mpr ⟨hnone, rfl⟩, nofun, nofun⟩

end Sys2Proof.Machine
end

section
/-! PROOFS. The session's invariant under the moves of the host (spec/60_exceptions.md R216). -/

namespace Sys2Proof.Machine

/-- The reset that begins a session leaves canonical memory and a clear latch (R240). -/
theorem Session.initialized_inv (t : Session) : t.initialized.Inv := by
  cases t <;> exact .of_clear rfl rfl

theorem Session.initialized_halted (t : Session) : t.initialized.halted = false := by
  cases t <;> rfl

/-- A ROM load on a core that is not halted keeps the invariant: it writes memory only (R242). -/
theorem State.Inv.memWriteList {s : State} (hs : s.Inv) (hr : s.halted = false) (a : Nat) (bs : List Byte) :
    (s.memWriteList a bs).Inv :=
  .of_clear (s.memWriteList_wf a bs hs.memory) ((s.memWriteList_fault a bs).trans (hs.fault_eq_clear hr))

/-- Settles O57: a reset leaves a clear latch, a ROM load meets a core that is not halted, a step keeps the
core's invariant and stays in the running phase, and the other moves touch nothing that the invariant reads. -/
theorem hostMovesKeepInvariant : Obligations.HostMovesKeepInvariant := by
  intro t t' m r ht h
  rcases Session.move_cases h with ⟨_, rfl⟩ | ⟨p, s, rfl, hmove⟩
  · exact ⟨t.initialized_inv, fun _ => t.initialized_halted⟩
  obtain ⟨hs, hp⟩ := ht
  rcases hmove with ⟨bytes, _, rfl, hload⟩ | ⟨_, rfl, s', hstep, rfl⟩ | ⟨keys, _, rfl⟩ | ⟨_, rfl⟩ | ⟨_, rfl⟩
  · have hr : s.halted = false := hp nofun
    rcases hload with ⟨_, rfl⟩ | ⟨_, rfl⟩
    · exact ⟨hs.memWriteList hr _ bytes, fun hne => absurd rfl hne⟩
    · exact ⟨hs, fun _ => hr⟩
  · exact ⟨step_keeps_inv hs hstep, fun hne => absurd rfl hne⟩
  · exact ⟨hs.congr rfl rfl rfl rfl, hp⟩
  · exact ⟨hs.congr rfl rfl rfl rfl, hp⟩
  · exact ⟨hs, hp⟩

end Sys2Proof.Machine
end

section
/-! PROOFS. The invariant and the reset values (spec/10_state.md R35). -/

namespace Sys2Proof.Machine

/-- Settles O3, by the lemma that every step keeps the invariant. -/
theorem stepKeepsInvariant : Obligations.StepKeepsInvariant := fun _ _ => step_keeps_inv

/-- Settles O2: no byte is listed and the latch is clear. -/
theorem resetMeetsInvariant : Obligations.ResetMeetsInvariant := .of_clear rfl rfl

/-- Settles O13, by the definition of the numbers. -/
theorem faultCodeNumbers : Obligations.FaultCodeNumbers := ⟨rfl, rfl, rfl, rfl⟩

/-- The font bytes stand at FONT_BASE and on, all of them below ROM_BASE (R8, R30). -/
theorem Memory.unlisted_font (j : Fin 80) : Memory.unlisted (Config.fontBase.val + j.val) = Config.fontTable j := by
  have hb := Config.fontBase.isLt
  have hlow : ¬ Config.romBase ≤ Config.fontBase.val + j.val := by unfold Config.romBase; omega
  rw [Memory.unlisted, if_neg hlow, fontByte, dif_pos ⟨by omega, by omega⟩]
  congr 1
  exact Fin.ext (Nat.add_sub_cancel_left ..)

/-- Outside the font table memory that lists nothing is 0 (R35). -/
theorem Memory.unlisted_eq_zero {a : Nat} (h : a < Config.fontBase.val ∨ Config.fontBase.val + 80 ≤ a) :
    Memory.unlisted a = 0 := by
  have hout : ¬ (Config.fontBase.val ≤ a ∧ a < Config.fontBase.val + 80) := by omega
  rw [Memory.unlisted, fontByte, dif_neg hout, ite_self]

/-- After reset every byte reads as an unlisted one. -/
theorem State.memRead_reset {a : Nat} (h : a < 4096) : State.reset.memRead a = Memory.unlisted a := by
  change Memory.unlisted (a % 4096) = _
  rw [Nat.mod_eq_of_lt h]

/-- Settles O1: the fields of the reset state are read off its definition, and memory, which lists nothing, by what
an unlisted address reads as. -/
theorem resetValues : Obligations.ResetValues := by
  have hzero : ∀ k : Nibble, State.reset.observe (.stackEntry k) = 0 := fun k => by
    simp [State.observe, State.reset]
  have hfont : ∀ j : Fin 80, State.reset.memRead (Config.fontBase.val + j.val) = Config.fontTable j := fun j => by
    have hb := Config.fontBase.isLt
    rw [State.memRead_reset (by omega), Memory.unlisted_font]
  have hrest : ∀ a : Addr, (a.toNat < Config.fontBase.val ∨ Config.fontBase.val + 80 ≤ a.toNat) →
      State.reset.memRead a.toNat = 0 := fun a ha => by
    rw [State.memRead_reset a.isLt, Memory.unlisted_eq_zero ha]
  exact ⟨fun x => Vector.getElem_replicate _, rfl, rfl, rfl, hzero, rfl, rfl, rfl, Framebuffer.pixel_blank,
    fun k => Vector.getElem_replicate _, hfont, hrest, rfl, rfl, rfl⟩

end Sys2Proof.Machine
end

section
/-! PROOFS. The handlers that look before they act, and the step, as one equation per case. -/

namespace Sys2Proof.Machine

/-! The answers of CALL, RET and LD_VX_K, one per case of what they look at. -/

theorem execCall_of_full {nnn : Addr} {s : State} (h : s.sp.val = 16) :
    exec (.call nnn) s = .next (s.raiseFault .stackOverflow s.pc (encode (.call nnn))) := if_pos h

theorem execCall_of_room {nnn : Addr} {s : State} (h : s.sp.val < 16) :
    exec (.call nnn) s = .next ((s.push (s.pc + 2)).setPc (extendAddr nnn)) := if_neg (Nat.ne_of_lt h)

theorem execRet_of_empty {s : State} (h : s.sp.val = 0) :
    exec .ret s = .next (s.raiseFault .stackUnderflow s.pc (encode .ret)) := if_pos (Fin.ext h)

theorem execRet_of_nonempty {s : State} (h : 0 < s.sp.val) : exec .ret s = .next (s.pop.setPc s.top) :=
  if_neg fun h0 => Nat.ne_of_gt h (congrArg Fin.val h0)

theorem execLdVxK_of_some {x : Reg} {s : State} {k : Nibble} (h : s.firstPressed = some k) :
    exec (.ldVxK x) s = .next (s.writeV x (k.setWidth 8)).advancePc := by
  simp only [exec, execLdVxK, h]

theorem execLdVxK_of_none {x : Reg} {s : State} (h : s.firstPressed = none) : exec (.ldVxK x) s = .next s := by
  simp only [exec, execLdVxK, h]

/-! The step, case by case, as an equation (R94). -/

theorem step_of_halted {s : State} (h : s.halted = true) : step s = .next s := if_pos h

theorem step_of_decode_ok {s : State} {i : Instr} (h : s.halted = false)
    (hd : decodeWord (s.fetch16 s.pc.toNat) = .ok i) : step s = exec i s := by
  simp only [step, h, hd, Bool.false_eq_true, if_false]

theorem step_of_decode_error {s : State} {e : DecodeError} (h : s.halted = false)
    (hd : decodeWord (s.fetch16 s.pc.toNat) = .error e) :
    step s = .next (s.raiseFault .illegalInstruction s.pc (s.fetch16 s.pc.toNat)) := by
  simp only [step, h, hd, Bool.false_eq_true, if_false]

end Sys2Proof.Machine
end

section
/-! PROOFS. Who writes what (spec/10_state.md R37): one frame over all instructions, built from the frames of the
shared operations. -/

namespace Sys2Proof.Machine

/-- Only parts that the instruction may write, by the list of writers of R37, changed from `s` to `t`. -/
def WrittenOnly (i : Instr) (s t : State) : Prop := ChangesOnly (fun p => p.writtenBy i = true) s t

namespace WrittenOnly

variable {i : Instr} {s t : State}

/-- Every instruction may write `pc`. -/
theorem setPc (h : WrittenOnly i s t) (w : Word) : WrittenOnly i s (t.setPc w) :=
  h.trans ((t.changesOnly_setPc w).mono (by rintro _ rfl; rfl))

theorem writeV (h : WrittenOnly i s t) {x : Reg} (hx : writesRegister x i = true) (b : Byte) :
    WrittenOnly i s (t.writeV x b) :=
  h.trans ((t.changesOnly_writeV x b).mono (by rintro _ rfl; exact hx))

theorem setI (h : WrittenOnly i s t) (hi : writesIndex i = true) (w : Word) : WrittenOnly i s (t.setI w) :=
  h.trans ((t.changesOnly_setI w).mono (by rintro _ rfl; exact hi))

theorem setFb (h : WrittenOnly i s t) (hi : writesFramebuffer i = true) (fb : Framebuffer) :
    WrittenOnly i s (t.setFb fb) :=
  h.trans ((t.changesOnly_setFb fb).mono (by rintro _ ⟨_, _, rfl⟩; exact hi))

theorem raiseFault (h : WrittenOnly i s t) (hi : callsOrReturns i = true) (c : FaultCode) (p w : Word) :
    WrittenOnly i s (t.raiseFault c p w) :=
  h.trans ((t.changesOnly_raiseFault c p w).mono (by rintro _ (rfl | rfl | rfl) <;> exact hi))

end WrittenOnly

/-- The frame of every instruction: it changes nothing but what R37 lists it as a writer of. -/
theorem exec_writtenOnly {i : Instr} {s t : State} (h : exec i s = .next t) : WrittenOnly i s t := by
  have hs : WrittenOnly i s s := .rfl'
  cases i with
  | ret =>
    rcases execRet_cases h with ⟨_, rfl⟩ | ⟨_, rfl⟩
    · exact hs.raiseFault rfl _ _ _
    · exact .setPc (s.changesOnly_pop.mono (by rintro _ rfl; rfl)) _
  | call nnn =>
    rcases execCall_cases h with ⟨_, rfl⟩ | ⟨hsp, rfl⟩
    · exact hs.raiseFault rfl _ _ _
    · exact .setPc ((s.changesOnly_push _ hsp).mono (by rintro _ (rfl | rfl) <;> rfl)) _
  | ldVxK x =>
    rcases execLdVxK_cases h with ⟨k, _, rfl⟩ | ⟨_, rfl⟩
    · exact (hs.writeV (beq_self_eq_true x) _).setPc _
    · exact hs
  | jp | jpV0 | seImm | sneImm | seReg | sneReg | skp | sknp => cases h; exact hs.setPc _
  | ldImm x | addImm x | ldReg x | or x | and x | xor x | ldVxDt x =>
    cases h
    exact (hs.writeV (beq_self_eq_true x) _).setPc _
  | addReg x | sub x | shr x | subn x | shl x =>
    cases h
    exact ((hs.writeV (by simp [writesRegister]) _).writeV (by simp [writesRegister]) _).setPc _
  | rnd x kk =>
    cases h
    have hx := hs.writeV (i := .rnd x kk) (beq_self_eq_true x) (s.drawByte &&& kk)
    exact .setPc (hx.trans ((State.changesOnly_countDraw _).mono (by rintro _ rfl; rfl))) _
  | cls => cases h; exact (hs.setFb rfl _).setPc _
  | drw x y n => cases h; exact ((hs.setFb rfl _).writeV (beq_self_eq_true flagReg) _).setPc _
  | ldI | addI | ldF => cases h; exact (hs.setI rfl _).setPc _
  | ldDtVx x => cases h; exact .setPc ((s.changesOnly_setDt _).mono (by rintro _ rfl; rfl)) _
  | ldStVx x => cases h; exact .setPc ((s.changesOnly_setSt _).mono (by rintro _ rfl; rfl)) _
  | ldB x => cases h; exact .setPc ((s.changesOnly_memWriteList _).mono (by rintro _ ⟨_, rfl, _⟩; rfl)) _
  | stRegs x =>
    cases h
    exact .setPc ((s.changesOnly_storeRegisters _ x.isLt).mono (by rintro _ ⟨_, rfl, _⟩; rfl)) _
  | ldRegs x =>
    cases h
    refine .setPc ((s.changesOnly_loadRegisters _ x.isLt).mono ?_) _
    rintro _ ⟨z, rfl, hz⟩
    exact decide_eq_true (Nat.le_of_lt_succ hz)

/-- The ROM load writes memory only (R242). -/
theorem State.changesOnly_romLoad {s t : State} {bytes : List Byte} (h : s.romLoad bytes = .next t) :
    ChangesOnly (fun p => ∃ a, p = .memByte a) s t := by
  rw [State.romLoad_eq] at h
  obtain ⟨_, ⟨⟩⟩ | ⟨_, ⟨⟩⟩ := ite_eq_iff.mp h
  exact (s.changesOnly_mem (s.memWriteList_frame _ bytes) (fun _ => True) fun _ ha => absurd trivial ha).mono
    fun _ ⟨a, hp, _⟩ => ⟨a, hp⟩

/-- Settles O51, by the frame of every instruction, of the illegal word's fault and of each move of the host. -/
theorem writersOfState : Obligations.WritersOfState := by
  refine ⟨fun i s t p h hp => ?_, fun s t e h he => ?_, State.changesOnly_setKeys, State.changesOnly_timerTick,
    fun _ _ _ => State.changesOnly_romLoad⟩
  · by_contra hw
    exact hp (exec_writtenOnly h p hw)
  · rcases step_cases h with ⟨_, rfl⟩ | ⟨_, i, hi, _⟩ | ⟨_, _, _, rfl⟩
    · exact .rfl'
    · rw [he] at hi
      cases hi
    · exact s.changesOnly_raiseFault _ _ _

end Sys2Proof.Machine
end

section
/-! PROOFS. Decoding gives back what was encoded (spec/30_encoding.md R96), so that an instruction's word is the
number its format makes of its fields. -/

namespace Sys2Proof

/-- Decoding an encoded instruction gives it back: the family nibble, and in the shared families the selector field,
lead to the row it came from. -/
theorem decodeWord_encode (i : Instr) : decodeWord (encode i) = .ok i := by
  rw [decodeWord_ok_iff]
  cases i with
  | cls => rfl
  | ret => rfl
  | _ => simp [encode, decodeFields, decodeFamily8, decodeFamilyE, decodeFamilyF]

/-- The word of an instruction is the number its encoding has. -/
theorem Machine.isWord_of_toNat_encode {n : Nat} {i : Instr} (h : (encode i).toNat = n) : Machine.IsWord n i :=
  ⟨by rw [ofNat_eq_encode h, decodeWord_encode], h⟩

end Sys2Proof
end

section
/-! PROOFS. RND (spec/41_alu.md R141). -/

namespace Sys2Proof.Machine

/-- Settles O32: Vx is the draw ANDed with the immediate, and the frame is that of the list of writers. -/
theorem randomByteIsMasked : Obligations.RandomByteIsMasked := by
  intro x kk s
  have hword : (encode (.rnd x kk)).toNat = 0xC000 + 0x100 * x.toNat + kk.toNat := toNat_encodeXKK 0xC x kk
  have hx : (s.writeV x (s.drawByte &&& kk)).countDraw.advancePc.readV x = Config.draw s.draws &&& kk := by
    simp [State.drawByte]
  have hframe : ∀ p : Part, p.writtenBy (.rnd x kk) = true → p = .reg x ∨ p = .pc ∨ p = .draws := by
    intro p hp
    cases p with
    | reg z => exact .inl (congrArg Part.reg (eq_of_beq hp))
    | pc => exact .inr (.inl rfl)
    | draws => exact .inr (.inr rfl)
    | _ => cases hp
  refine ⟨isWord_of_toNat_encode hword, _, rfl, ?_, ?_, ?_, rfl, ?_, ChangesOnly.mono (exec_writtenOnly rfl) hframe⟩
  · intro j _
    rw [hx, BitVec.getLsbD_and]
  · rintro rfl
    rw [hx]
    exact BitVec.and_allOnes
  · rintro rfl
    rw [hx]
    exact BitVec.and_zero
  · simp [BitVec.toNat_add]

end Sys2Proof.Machine
end

section
/-! PROOFS. Memory accesses and the block moves read I only modulo 4096 (spec/20_memory.md R52), and beside it only
memory and registers. -/

namespace Sys2Proof.Machine.State

/-- Two addresses that the mask makes one read the same byte (R52). -/
theorem memRead_eq {s t : State} (hm : t.mem = s.mem) {a b : Nat} (h : maskAddress b = maskAddress a) :
    t.memRead b = s.memRead a := by
  rw [memRead, memRead, hm, h]

theorem memWrite_mem_eq {s t : State} (hm : t.mem = s.mem) {a b : Nat} (h : maskAddress b = maskAddress a) (c : Byte) :
    (t.memWrite b c).mem = (s.memWrite a c).mem := by
  rw [memWrite_mem, memWrite_mem, hm, h]

theorem maskAddress_add {a b : Nat} (h : maskAddress b = maskAddress a) (k : Nat) :
    maskAddress (b + k) = maskAddress (a + k) := Nat.ModEq.add_right k h

theorem memWriteList_mem_eq {s t : State} (hm : t.mem = s.mem) {a b : Nat} (h : maskAddress b = maskAddress a)
    (bs : List Byte) : (t.memWriteList b bs).mem = (s.memWriteList a bs).mem := by
  induction bs generalizing s t a b with
  | nil => exact hm
  | cons c bs ih => exact ih (memWrite_mem_eq hm h c) (maskAddress_add h 1)

theorem storeRegisters_mem_eq {s t : State} (hm : t.mem = s.mem) (hv : t.v = s.v) (h : SameAddress t.i s.i) (n : Nat) :
    (t.storeRegisters n).mem = (s.storeRegisters n).mem := by
  induction n with
  | zero => exact hm
  | succ n ih =>
    rw [storeRegisters, storeRegisters, readV_congr hv]
    exact memWrite_mem_eq ih (maskAddress_add h n) _

theorem loadRegisters_v_eq {s t : State} (hm : t.mem = s.mem) (hv : t.v = s.v) (h : SameAddress t.i s.i) (n : Nat) :
    (t.loadRegisters n).v = (s.loadRegisters n).v := by
  induction n with
  | zero => exact hv
  | succ n ih =>
    have hbyte : t.memRead (t.dataAddress n) = s.memRead (s.dataAddress n) := memRead_eq hm (maskAddress_add h n)
    rw [loadRegisters, loadRegisters, writeV_v, writeV_v, ih, hbyte]

end Sys2Proof.Machine.State
end

section
/-! PROOFS. What no instruction reads, or only a few do: the keys (R186), the sound timer (R27) and the model's
counter of draws (R31). An instruction that neither reads nor overwrites them runs the same whatever they hold. -/

namespace Sys2Proof.Machine

namespace State

/-- `s` with other keys, another sound timer and another count of draws, each made from what it was. -/
def mapUnread (k : Keys → Keys) (b : Byte → Byte) (n : Nat → Nat) (s : State) : State :=
  { s with key := k s.key, st := b s.st, draws := n s.draws }

section
variable (k : Keys → Keys) (b : Byte → Byte) (n : Nat → Nat) (s : State)

theorem mapUnread_memWriteList (a : Nat) (bs : List Byte) :
    (s.mapUnread k b n).memWriteList a bs = (s.memWriteList a bs).mapUnread k b n := by
  rw [memWriteList_frame, s.memWriteList_frame, memWriteList_mem_eq (s := s) (t := s.mapUnread k b n) rfl rfl]
  rfl

theorem mapUnread_storeRegisters (m : Nat) :
    (s.mapUnread k b n).storeRegisters m = (s.storeRegisters m).mapUnread k b n := by
  rw [storeRegisters_frame, s.storeRegisters_frame, storeRegisters_mem_eq (s := s) (t := s.mapUnread k b n) rfl rfl rfl]
  rfl

theorem mapUnread_loadRegisters (m : Nat) :
    (s.mapUnread k b n).loadRegisters m = (s.loadRegisters m).mapUnread k b n := by
  rw [loadRegisters_frame, s.loadRegisters_frame, loadRegisters_v_eq (s := s) (t := s.mapUnread k b n) rfl rfl rfl]
  rfl

end

end State

/-- The instructions that read the keys (R186). -/
def readsKeys : Instr → Bool
  | .skp _ | .sknp _ | .ldVxK _ => true
  | _ => false

theorem next_advancePc_congr {s t : State} (h : s = t) : (.next s.advancePc : Answer) = .next t.advancePc := by
  rw [h]

/-- A handler commutes with every change of the keys, the sound timer and the count of draws, but that the keys must
stay for an instruction that reads them, the sound timer for LD_ST_VX, and the count for RND. -/
theorem exec_mapUnread {k : Keys → Keys} {b : Byte → Byte} {n : Nat → Nat} {i : Instr} {s t : State}
    (hk : readsKeys i = true → k = id) (hb : ∀ x, i = .ldStVx x → b = id) (hn : ∀ x kk, i = .rnd x kk → n = id)
    (h : exec i s = .next t) : exec i (s.mapUnread k b n) = .next (t.mapUnread k b n) := by
  cases i with
  | call nnn =>
    rcases execCall_cases h with ⟨hsp, rfl⟩ | ⟨hsp, rfl⟩
    · exact execCall_of_full hsp
    · exact execCall_of_room hsp
  | ret =>
    rcases execRet_cases h with ⟨hsp, rfl⟩ | ⟨hsp, rfl⟩
    · exact execRet_of_empty hsp
    · exact execRet_of_nonempty hsp
  | skp | sknp => cases h; cases hk rfl; rfl
  | ldVxK x =>
    cases hk rfl
    rcases execLdVxK_cases h with ⟨key, hkey, rfl⟩ | ⟨hkey, rfl⟩
    · exact execLdVxK_of_some hkey
    · exact execLdVxK_of_none hkey
  | ldStVx x => cases h; cases hb x rfl; rfl
  | rnd x kk => cases h; cases hn x kk rfl; rfl
  | ldB x => cases h; exact next_advancePc_congr (s.mapUnread_memWriteList k b n _ _)
  | stRegs x => cases h; exact next_advancePc_congr (s.mapUnread_storeRegisters k b n _)
  | ldRegs x => cases h; exact next_advancePc_congr (s.mapUnread_loadRegisters k b n _)
  | _ => cases h; rfl

/-- Settles O33: with the keys and the sound timer as they are, another count commutes with every handler but RND's. -/
theorem onlyRndReadsTheDraws : Obligations.OnlyRndReadsTheDraws := fun _ _ _ n hi h =>
  exec_mapUnread (k := id) (b := id) (n := fun _ => n) (fun _ => rfl) (fun _ _ => rfl)
    (fun x kk hrnd => absurd hrnd (hi x kk)) h

/-- Settles O49: the key write is a change of the keys alone, which commutes with every handler that does not read
them. -/
theorem onlyKeyInstructionsReadTheKeys : Obligations.OnlyKeyInstructionsReadTheKeys := by
  intro i s t keys hi h
  have hkeys : readsKeys i ≠ true := by
    cases i with
    | skp x => exact absurd rfl (hi x).1
    | sknp x => exact absurd rfl (hi x).2.1
    | ldVxK x => exact absurd rfl (hi x).2.2
    | _ => exact nofun
  exact exec_mapUnread (k := fun _ => keys) (b := id) (n := id) (fun hk => absurd hk hkeys) (fun _ _ => rfl)
    (fun _ _ _ => rfl) h

/-- Settles O50: LD_ST_VX overwrites the changed value, and every other instruction carries it along. -/
theorem noInstructionReadsTheSoundTimer : Obligations.NoInstructionReadsTheSoundTimer := by
  intro i s t b h
  by_cases hi : ∃ x, i = .ldStVx x
  · obtain ⟨x, rfl⟩ := hi
    cases h
    exact ⟨_, rfl, rfl, .inl rfl⟩
  · exact ⟨_, exec_mapUnread (k := id) (b := fun _ => b) (n := id) (fun _ => rfl)
      (fun x hx => absurd ⟨x, hx⟩ hi) (fun _ _ _ => rfl) h, rfl, .inr rfl⟩

end Sys2Proof.Machine
end

section
/-! PROOFS. Memory in canonical form is determined by what it reads (log entry 6). -/

namespace Sys2Proof.Machine.Memory

theorem wfFrom_cons {lo : Nat} {c : Host.Cell} {m : Memory} : Memory.wfFrom lo (c :: m) = true ↔
    lo ≤ c.1 ∧ c.1 < Config.memSize ∧ c.2 ≠ unlisted c.1 ∧ Memory.wfFrom (c.1 + 1) m = true := by
  simp only [Memory.wfFrom, Bool.and_eq_true, decide_eq_true_eq, and_assoc]

/-- Below its least address a canonical memory reads as unlisted. -/
theorem read_below {lo a : Nat} {m : Memory} (hm : Memory.wfFrom lo m = true) (ha : a < lo) :
    Memory.read m a = unlisted a := by
  induction m generalizing lo with
  | nil => rfl
  | cons c m ih =>
    obtain ⟨hlo, -, -, htail⟩ := wfFrom_cons.mp hm
    rw [Memory.read, if_neg (by omega), ih htail (by omega)]

@[simp] theorem read_cons_self (c : Host.Cell) (m : Memory) : Memory.read (c :: m) c.1 = c.2 := if_pos rfl

/-- A canonical memory that lists `c` first reads otherwise than any memory that lists nothing as low as `c`. -/
theorem read_cons_ne_of_above {lo : Nat} {c : Host.Cell} {m m' : Memory} (hm : Memory.wfFrom lo (c :: m) = true)
    (hm' : Memory.wfFrom (c.1 + 1) m' = true) : Memory.read (c :: m) c.1 ≠ Memory.read m' c.1 := by
  rw [read_cons_self, read_below hm' (Nat.lt_succ_self _)]
  exact (wfFrom_cons.mp hm).2.2.1

/-- Two canonical memories that read the same from `lo` on are the same list: their first cells stand at one address,
since at the lower of two the one memory lists a byte and the other does not. -/
theorem eq_of_read_eq {lo : Nat} {m m' : Memory} (hm : Memory.wfFrom lo m = true) (hm' : Memory.wfFrom lo m' = true)
    (h : ∀ a, lo ≤ a → a < Config.memSize → Memory.read m a = Memory.read m' a) : m = m' := by
  induction m generalizing lo m' with
  | nil =>
    cases m' with
    | nil => rfl
    | cons c' m' =>
      obtain ⟨hlo, hmax, -, -⟩ := wfFrom_cons.mp hm'
      exact absurd (h c'.1 hlo hmax).symm (read_cons_ne_of_above hm' rfl)
  | cons c m ih =>
    obtain ⟨hlo, hmax, hbyte, htail⟩ := wfFrom_cons.mp hm
    have hc := h c.1 hlo hmax
    cases m' with
    | nil => exact absurd hc (read_cons_ne_of_above hm rfl)
    | cons c' m' =>
      obtain ⟨hlo', hmax', hbyte', htail'⟩ := wfFrom_cons.mp hm'
      rcases Nat.lt_trichotomy c.1 c'.1 with hlt | heq | hgt
      · exact absurd hc (read_cons_ne_of_above hm (wfFrom_cons.mpr ⟨hlt, hmax', hbyte', htail'⟩))
      · have hcell : c = c' := by
          rw [read_cons_self, heq, read_cons_self] at hc
          exact Prod.ext heq hc
        subst hcell
        have hrest : m = m' := ih htail htail' fun a hlo'' hmax'' => by
          have := h a (by omega) hmax''
          rwa [Memory.read, Memory.read, if_neg (by omega), if_neg (by omega)] at this
        rw [hrest]
      · exact absurd (h c'.1 hlo' hmax').symm
          (read_cons_ne_of_above hm' (wfFrom_cons.mpr ⟨hgt, hmax, hbyte, htail⟩))

/-- Settles O41: the canonical form of the whole memory is that from address 0 on. -/
theorem canonicalMemoryIsUnique : Obligations.CanonicalMemoryIsUnique := fun _ _ hm hm' h =>
  eq_of_read_eq hm hm' fun a _ ha => h ⟨a, ha⟩

end Sys2Proof.Machine.Memory
end

section
/-! PROOFS. Bits 15:12 of I, of `pc` and of the addresses copied from `pc` cannot be observed (spec/10_state.md R22,
R23): every shared operation carries `SameToPrograms` along. -/

namespace Sys2Proof.Machine

theorem SameAddress.refl (a : Word) : SameAddress a a := rfl

/-- Addresses that agree modulo 4096 still do after an addition modulo 65536. -/
theorem SameAddress.add {a b : Word} (h : SameAddress a b) (c : Word) : SameAddress (a + c) (b + c) := by
  unfold SameAddress at *
  rw [BitVec.toNat_add, BitVec.toNat_add]
  omega

/-- `s` with other addresses where `SameToPrograms` allows them. -/
def State.withAddresses (s : State) (i pc : Word) (stack : Vector Word 16) (p : Word) : State :=
  { s with i := i, pc := pc, stack := stack, fault := { s.fault with pc := p } }

namespace SameToPrograms

variable {s t : State}

/-- States that a program cannot tell apart are one state but for the addresses in it. -/
theorem eq_withAddresses (h : SameToPrograms s t) : t = s.withAddresses t.i t.pc t.stack t.fault.pc := by
  obtain ⟨v, -, -, -, sp, dt, st, fb, key, mem, faultCode, -, faultInstr, draws⟩ := h
  simp only [State.withAddresses, v, sp, dt, st, fb, key, mem, faultCode, faultInstr, draws]

theorem setPc (h : SameToPrograms s t) {w w' : Word} (hw : SameAddress w w') :
    SameToPrograms (s.setPc w) (t.setPc w') := { h with pc := hw }

theorem advancePc (h : SameToPrograms s t) : SameToPrograms s.advancePc t.advancePc := h.setPc (h.pc.add 2)

theorem skipIf (h : SameToPrograms s t) (c : Bool) : SameToPrograms (s.skipIf c) (t.skipIf c) := by
  cases c
  · exact h.setPc (h.pc.add 2)
  · exact h.setPc (h.pc.add 4)

theorem setI (h : SameToPrograms s t) {w w' : Word} (hw : SameAddress w w') :
    SameToPrograms (s.setI w) (t.setI w') := { h with i := hw }

theorem writeV (h : SameToPrograms s t) (x : Reg) {b b' : Byte} (hb : b = b') :
    SameToPrograms (s.writeV x b) (t.writeV x b') :=
  { h with v := by rw [State.writeV_v, State.writeV_v, h.v, hb] }

theorem setFb (h : SameToPrograms s t) {fb fb' : Framebuffer} (hfb : fb = fb') :
    SameToPrograms (s.setFb fb) (t.setFb fb') := { h with fb := hfb }

theorem setDt (h : SameToPrograms s t) (b : Byte) : SameToPrograms (s.setDt b) (t.setDt b) := { h with dt := rfl }

theorem setSt (h : SameToPrograms s t) (b : Byte) : SameToPrograms (s.setSt b) (t.setSt b) := { h with st := rfl }

theorem countDraw (h : SameToPrograms s t) : SameToPrograms s.countDraw t.countDraw :=
  { h with draws := congrArg (· + 1) h.draws }

theorem raiseFault (h : SameToPrograms s t) (c : FaultCode) {p p' : Word} (hp : SameAddress p p') {w w' : Word}
    (hw : w = w') : SameToPrograms (s.raiseFault c p w) (t.raiseFault c p' w') :=
  { h with faultCode := rfl, faultPc := hp, faultInstr := hw }

theorem push (h : SameToPrograms s t) {w w' : Word} (hw : SameAddress w w') :
    SameToPrograms (s.push w) (t.push w') :=
  { h with
    sp := congrArg (· + 1) h.sp
    stack := fun k => by
      simp only [State.push_stack, Vector.getElem_setIfInBounds k.isLt, h.sp]
      split
      · exact hw
      · exact h.stack k }

theorem pop (h : SameToPrograms s t) : SameToPrograms s.pop t.pop := { h with sp := congrArg (· - 1) h.sp }

theorem top (h : SameToPrograms s t) : SameAddress s.top t.top := by
  have hlt : t.sp.val - 1 < 16 := by omega
  have hk := h.stack (BitVec.ofNat 4 (t.sp.val - 1))
  simp only [BitVec.toNat_ofNat, Nat.mod_eq_of_lt hlt] at hk
  simpa only [State.top, h.sp] using hk

theorem memRead (h : SameToPrograms s t) {a b : Nat} (hab : maskAddress a = maskAddress b) :
    s.memRead a = t.memRead b := State.memRead_eq h.mem hab

/-- The word fetched at `pc` is the same (R53). -/
theorem fetch16 (h : SameToPrograms s t) : s.fetch16 s.pc.toNat = t.fetch16 t.pc.toNat := by
  rw [State.fetch16, State.fetch16, h.memRead h.pc, h.memRead (State.maskAddress_add h.pc 1)]

/-- The sprite at I is the same (R171). -/
theorem spriteByte (h : SameToPrograms s t) : s.spriteByte = t.spriteByte :=
  funext fun j => h.memRead (State.maskAddress_add h.i j)

theorem memWriteList (h : SameToPrograms s t) (bs : List Byte) :
    SameToPrograms (s.memWriteList (s.dataAddress 0) bs) (t.memWriteList (t.dataAddress 0) bs) := by
  have hmem := State.memWriteList_mem_eq h.mem h.i bs
  rw [State.memWriteList_frame s, State.memWriteList_frame t]
  exact { h with mem := hmem }

theorem storeRegisters (h : SameToPrograms s t) (n : Nat) :
    SameToPrograms (s.storeRegisters n) (t.storeRegisters n) := by
  have hmem := State.storeRegisters_mem_eq h.mem h.v h.i n
  rw [State.storeRegisters_frame s, State.storeRegisters_frame t]
  exact { h with mem := hmem }

theorem loadRegisters (h : SameToPrograms s t) (n : Nat) :
    SameToPrograms (s.loadRegisters n) (t.loadRegisters n) := by
  have hv := State.loadRegisters_v_eq h.mem h.v h.i n
  rw [State.loadRegisters_frame s, State.loadRegisters_frame t]
  exact { h with v := hv }

end SameToPrograms

/-- One handler takes states that a program cannot tell apart to such states. -/
theorem exec_sameToPrograms {i : Instr} {s t s' : State} (hst : SameToPrograms s t) (h : exec i s = .next s') :
    ∃ t', exec i t = .next t' ∧ SameToPrograms s' t' := by
  -- With `t` written as `s` with other addresses, the two read the same registers, keys and timers by computation.
  obtain ⟨index, pc, stack, p, rfl⟩ : ∃ index pc stack p, t = s.withAddresses index pc stack p :=
    ⟨_, _, _, _, hst.eq_withAddresses⟩
  cases i with
  | ret =>
    rcases execRet_cases h with ⟨hsp, rfl⟩ | ⟨hsp, rfl⟩
    · exact ⟨_, execRet_of_empty hsp, hst.raiseFault _ hst.pc rfl⟩
    · exact ⟨_, execRet_of_nonempty hsp, hst.pop.setPc hst.top⟩
  | call nnn =>
    rcases execCall_cases h with ⟨hsp, rfl⟩ | ⟨hsp, rfl⟩
    · exact ⟨_, execCall_of_full hsp, hst.raiseFault _ hst.pc rfl⟩
    · exact ⟨_, execCall_of_room hsp, (hst.push (hst.pc.add 2)).setPc (.refl _)⟩
  | ldVxK x =>
    rcases execLdVxK_cases h with ⟨key, hkey, rfl⟩ | ⟨hkey, rfl⟩
    · exact ⟨_, execLdVxK_of_some hkey, (hst.writeV x rfl).advancePc⟩
    · exact ⟨_, execLdVxK_of_none hkey, hst⟩
  | jp | jpV0 => cases h; exact ⟨_, rfl, hst.setPc (.refl _)⟩
  | seImm | sneImm | seReg | sneReg | skp | sknp => cases h; exact ⟨_, rfl, hst.skipIf _⟩
  | ldImm x | addImm x | ldReg x | or x | and x | xor x | ldVxDt x =>
    cases h; exact ⟨_, rfl, (hst.writeV x rfl).advancePc⟩
  | addReg x | sub x | shr x | subn x | shl x =>
    cases h; exact ⟨_, rfl, ((hst.writeV x rfl).writeV flagReg rfl).advancePc⟩
  | rnd x => cases h; exact ⟨_, rfl, (hst.writeV x rfl).countDraw.advancePc⟩
  | cls => cases h; exact ⟨_, rfl, (hst.setFb rfl).advancePc⟩
  | drw x y n =>
    cases h
    have hd := congrArg
      (fun sprite => Drawing.plotRows ⟨s.fb, false⟩ sprite (s.spriteRow y) (s.spriteColumn x) n.toNat) hst.spriteByte
    exact ⟨_, rfl, ((hst.setFb (congrArg Drawing.fb hd)).writeV flagReg
      (congrArg (fun d => flagByte d.collision) hd)).advancePc⟩
  | ldI | ldF => cases h; exact ⟨_, rfl, (hst.setI (.refl _)).advancePc⟩
  | addI => cases h; exact ⟨_, rfl, (hst.setI (hst.i.add _)).advancePc⟩
  | ldDtVx => cases h; exact ⟨_, rfl, (hst.setDt _).advancePc⟩
  | ldStVx => cases h; exact ⟨_, rfl, (hst.setSt _).advancePc⟩
  | ldB => cases h; exact ⟨_, rfl, (hst.memWriteList _).advancePc⟩
  | stRegs => cases h; exact ⟨_, rfl, (hst.storeRegisters _).advancePc⟩
  | ldRegs => cases h; exact ⟨_, rfl, (hst.loadRegisters _).advancePc⟩

/-- Settles O42: the two states are halted alike and fetch the same word, so the second makes the step of the first. -/
theorem upperAddressBitsAreUnobservable : Obligations.UpperAddressBitsAreUnobservable := by
  intro s t s' hst h
  have hhalted : t.halted = s.halted := by rw [State.halted, State.halted, hst.faultCode]
  have hword := hst.fetch16
  rcases step_cases h with ⟨hh, rfl⟩ | ⟨hh, i, hd, he⟩ | ⟨hh, e, hd, rfl⟩
  · exact ⟨t, step_of_halted (hhalted.trans hh), hst⟩
  · obtain ⟨t', ht', hst'⟩ := exec_sameToPrograms hst he
    exact ⟨t', (step_of_decode_ok (hhalted.trans hh) (hword ▸ hd)).trans ht', hst'⟩
  · exact ⟨_, step_of_decode_error (hhalted.trans hh) (hword ▸ hd), hst.raiseFault _ hst.pc hword⟩

end Sys2Proof.Machine
end

section
/-! PROOFS. The instruction fetch (spec/20_memory.md R53), and a store into the instruction stream (R59, R62). -/

namespace Sys2Proof

/-- The byte of the lower address is the more significant (R53). -/
theorem toNat_wordOfBytes (hi lo : Byte) : (wordOfBytes hi lo).toNat = 256 * hi.toNat + lo.toNat := by
  rw [wordOfBytes, BitVec.toNat_cast, BitVec.toNat_append, ← Nat.shiftLeft_add_eq_or_of_lt lo.isLt,
    Nat.shiftLeft_eq, Nat.mul_comm]

namespace Machine

/-- The fetched word as a number, by the two bytes it is made of (R53). -/
theorem State.toNat_fetch16 (s : State) (a : Nat) :
    (s.fetch16 a).toNat = 256 * (s.memRead a).toNat + (s.memRead (a + 1)).toNat := toNat_wordOfBytes _ _

/-- Settles O4: a read masks its address, so the masked addresses read the same two bytes. -/
theorem fetchIsBigEndian : Obligations.FetchIsBigEndian := by
  intro s a
  rw [s.toNat_fetch16, ← s.memRead_mask a, ← s.memRead_mask (a + 1)]
  rfl

/-- The byte at I + k after V0 to V(n - 1) are stored is Vk (R154), at every address that the mask makes I + k. -/
theorem State.memRead_storeRegisters_same (s : State) {n k c : Nat} (hn : n ≤ 16) (hk : k < n)
    (hc : maskAddress c = maskAddress (s.dataAddress k)) :
    (s.storeRegisters n).memRead c = s.readV (BitVec.ofNat 4 k) :=
  (s.memRead_storeRegisters n hn c).2 k hk hc

/-- Settles O40: `pc` moves on by 2 to the address in I, where the bytes of V0 and V1 now stand. -/
theorem storeIsSeenByTheNextFetch : Obligations.StoreIsSeenByTheNextFetch := by
  intro x s t h hx hi
  cases h
  have hfirst : maskAddress (s.pc + 2).toNat = maskAddress (s.dataAddress 0) := hi.symm
  have hsecond : maskAddress ((s.pc + 2).toNat + 1) = maskAddress (s.dataAddress 1) :=
    State.maskAddress_add hfirst 1
  rw [State.toNat_fetch16, State.memRead_advancePc, State.memRead_advancePc, State.advancePc_pc,
    State.storeRegisters_pc, s.memRead_storeRegisters_same x.isLt (Nat.succ_pos _) hfirst,
    s.memRead_storeRegisters_same x.isLt (Nat.succ_lt_succ hx) hsecond]
  rfl

end Machine

end Sys2Proof
end

section
/-! PROOFS. Words and instructions are in bijection but for the illegal words (spec/30_encoding.md R90, R96): the round
trips, and the census of the words by the instructions they encode. -/

namespace Sys2Proof

/-- Settles O14, by the lemma that decoding gives back what was encoded. -/
theorem decodeOfEncode : Obligations.DecodeOfEncode := decodeWord_encode

/-- Settles O15, by the lemma that a word that decodes is the encoding of its instruction. -/
theorem encodeOfDecode : Obligations.EncodeOfDecode := fun _ _ => encode_of_decodeWord_ok

/-- The two round trips in one: a word decodes to the instruction that encodes to it, and to no other. -/
theorem decodeWord_ok_iff_encode_eq {w : Word} {i : Instr} : decodeWord w = .ok i ↔ encode i = w :=
  ⟨encode_of_decodeWord_ok, fun h => h ▸ decodeWord_encode i⟩

/-- No two instructions share a word. -/
theorem encode_injective : Function.Injective encode := fun _ j h =>
  Except.ok.inj ((decodeWord_ok_iff_encode_eq.mpr h).symm.trans (decodeWord_encode j))

/-- The decoder refuses exactly the words it gives no instruction (R90). -/
theorem exists_decodeWord_error_iff {w : Word} : (∃ e, decodeWord w = .error e) ↔ ¬ ∃ i, decodeWord w = .ok i := by
  cases decodeWord w <;> simp

/-- Settles O19: each word is decoded as it stands. -/
theorem sampleWordsDecode : Obligations.SampleWordsDecode :=
  ⟨by decide, by decide, by decide, by decide, by decide, by decide, by decide, by decide, by decide, by decide⟩

/-! The census (R90): the instructions are counted by their operands, constructor by constructor. -/

theorem card_bitVec (n : Nat) : Nat.card (BitVec n) = 2 ^ n := by
  rw [Nat.card_congr BitVec.equivFin.toEquiv, Nat.card_fin]

theorem card_bitVec_sigma (n : Nat) (β : Type) : Nat.card ((_ : BitVec n) × β) = 2 ^ n * Nat.card β := by
  rw [Nat.card_congr (Equiv.sigmaEquivProd _ β), Nat.card_prod, card_bitVec]

/-- An instruction is a constructor and its operands: the sum, over the 34 constructors, of their operands' types. -/
def operandsEquivInstr := proxy_equiv% Instr

/-- By format (R82): 2 + 4 * 2 ^ 12 (NNN) + 5 * 2 ^ 12 (XKK) + 2 ^ 12 (DRW) + 11 * 2 ^ 8 (x and y) + 11 * 2 ^ 4 (x). -/
theorem card_instr : Nat.card Instr = 43954 := by
  rw [← Nat.card_congr operandsEquivInstr]
  simp only [Nat.card_sum, card_bitVec_sigma, card_bitVec, Nat.card_unique]
  rfl

/-- There are as many words that decode as instructions, since `encode` is injective onto them. -/
theorem card_legalWord : Nat.card { w : Word // ∃ i, decodeWord w = .ok i } = 43954 := by
  simp only [decodeWord_ok_iff_encode_eq]
  exact (Nat.card_range_of_injective encode_injective).trans card_instr

/-- Settles O18: the legal words are as many as the instructions, and the illegal ones are the rest of the 65536. -/
theorem legalWordCount : Obligations.LegalWordCount := by
  classical
  refine ⟨card_legalWord, ?_⟩
  have hsum := Nat.card_congr (Equiv.sumCompl fun w : Word => ∃ i, decodeWord w = .ok i)
  rw [Nat.card_sum, card_legalWord, card_bitVec] at hsum
  simp only [exists_decodeWord_error_iff]
  omega

end Sys2Proof
end

section
/-! PROOFS. The opcode map as masks and patterns (spec/30_encoding.md R84 to R90): its rows do not overlap, and they
cover exactly the words that decode. -/

namespace Sys2Proof

section
variable {w : Word} {r q : OpcodeRow}

theorem OpcodeRow.covers_iff : r.covers w = true ↔ w &&& r.mask = r.pattern := beq_iff_eq

/-- Two rows that cover one word agree on the bits that both fix. -/
theorem OpcodeRow.pattern_and_mask_eq (hr : r.covers w = true) (hq : q.covers w = true) :
    r.pattern &&& q.mask = q.pattern &&& r.mask := by
  rw [← covers_iff.mp hr, ← covers_iff.mp hq]
  ac_rfl

/-- A field that a row fixes whole has the row's value in every word the row covers. -/
theorem OpcodeRow.extractLsb'_of_covers {start len : Nat} (hr : r.covers w = true)
    (hmask : r.mask.extractLsb' start len = BitVec.allOnes len) :
    w.extractLsb' start len = r.pattern.extractLsb' start len := by
  rw [← covers_iff.mp hr, BitVec.extractLsb'_and, hmask, BitVec.and_allOnes]

end

/-- Row `j` of the opcode map. -/
def opcodeRow (j : Fin 34) : OpcodeRow := opcodeRows[j.val]'j.isLt

theorem getElem?_opcodeRows (j : Fin 34) : opcodeRows[j.val]? = some (opcodeRow j) := List.getElem?_eq_getElem _

/-- Of two different rows some bit that both fix differs. -/
theorem opcodeRow_eq_of_pattern_and_mask_eq : ∀ {j k : Fin 34},
    (opcodeRow j).pattern &&& (opcodeRow k).mask = (opcodeRow k).pattern &&& (opcodeRow j).mask → j = k := by
  decide

/-- Settles O17: rows that cover one word agree on the bits that both fix, and so are one row. -/
theorem opcodeRowsDoNotOverlap : Obligations.OpcodeRowsDoNotOverlap := by
  intro w j k hj hk
  rw [getElem?_opcodeRows, Option.map_some, Option.some_inj] at hj hk
  exact opcodeRow_eq_of_pattern_and_mask_eq (OpcodeRow.pattern_and_mask_eq hj hk)

/-- A covered word decodes: once the fields that select its row are known, the opcode map computes. -/
theorem exists_decodeFields_of_covers {w : Word} {r : OpcodeRow} (hr : r ∈ opcodeRows) (hc : r.covers w = true) :
    ∃ i, decodeFields w = some i := by
  simp only [opcodeRows, List.mem_append] at hr
  obtain ((hr | hr) | hr) | hr := hr
  · have hmask : ∀ r ∈ opcodeRowsFixed, r.mask = BitVec.allOnes 16 := by decide
    have hw : w = r.pattern := by rw [← OpcodeRow.covers_iff.mp hc, hmask r hr, BitVec.and_allOnes]
    rw [hw]
    fin_cases hr <;> exact ⟨_, rfl⟩
  · have hmask : ∀ r ∈ opcodeRowsFamily, opField r.mask = 0xF := by decide
    have hop : opField w = opField r.pattern := OpcodeRow.extractLsb'_of_covers hc (hmask r hr)
    rw [decodeFields, hop]
    fin_cases hr <;> exact ⟨_, rfl⟩
  · have hmask : ∀ r ∈ opcodeRowsNibble, opField r.mask = 0xF ∧ nField r.mask = 0xF := by decide
    obtain ⟨hmop, hmn⟩ := hmask r hr
    have hop : opField w = opField r.pattern := OpcodeRow.extractLsb'_of_covers hc hmop
    have hn : nField w = nField r.pattern := OpcodeRow.extractLsb'_of_covers hc hmn
    rw [decodeFields, hop, hn]
    fin_cases hr <;> exact ⟨_, rfl⟩
  · have hmask : ∀ r ∈ opcodeRowsByte, opField r.mask = 0xF ∧ kkField r.mask = 0xFF := by decide
    obtain ⟨hmop, hmkk⟩ := hmask r hr
    have hop : opField w = opField r.pattern := OpcodeRow.extractLsb'_of_covers hc hmop
    have hkk : kkField w = kkField r.pattern := OpcodeRow.extractLsb'_of_covers hc hmkk
    rw [decodeFields, hop, hkk]
    fin_cases hr <;> exact ⟨_, rfl⟩

open Laws in
/-- The word of every instruction is covered, by the statements made instruction by instruction. -/
theorem wellFormedWord_encode : ∀ i, wellFormedWord (encode i) = true
  | .cls => EncodesToTableRow.cls
  | .ret => EncodesToTableRow.ret
  | .jp nnn => EncodesToTableRow.jp nnn
  | .call nnn => EncodesToTableRow.call nnn
  | .seImm x kk => EncodesToTableRow.seImm x kk
  | .sneImm x kk => EncodesToTableRow.sneImm x kk
  | .seReg x y => EncodesToTableRow.seReg x y
  | .ldImm x kk => EncodesToTableRow.ldImm x kk
  | .addImm x kk => EncodesToTableRow.addImm x kk
  | .ldReg x y => EncodesToTableRow.ldReg x y
  | .or x y => EncodesToTableRow.or x y
  | .and x y => EncodesToTableRow.and x y
  | .xor x y => EncodesToTableRow.xor x y
  | .addReg x y => EncodesToTableRow.addReg x y
  | .sub x y => EncodesToTableRow.sub x y
  | .shr x y => EncodesToTableRow.shr x y
  | .subn x y => EncodesToTableRow.subn x y
  | .shl x y => EncodesToTableRow.shl x y
  | .sneReg x y => EncodesToTableRow.sneReg x y
  | .ldI nnn => EncodesToTableRow.ldI nnn
  | .jpV0 nnn => EncodesToTableRow.jpV0 nnn
  | .rnd x kk => EncodesToTableRow.rnd x kk
  | .drw x y n => EncodesToTableRow.drw x y n
  | .skp x => EncodesToTableRow.skp x
  | .sknp x => EncodesToTableRow.sknp x
  | .ldVxDt x => EncodesToTableRow.ldVxDt x
  | .ldVxK x => EncodesToTableRow.ldVxK x
  | .ldDtVx x => EncodesToTableRow.ldDtVx x
  | .ldStVx x => EncodesToTableRow.ldStVx x
  | .addI x => EncodesToTableRow.addI x
  | .ldF x => EncodesToTableRow.ldF x
  | .ldB x => EncodesToTableRow.ldB x
  | .stRegs x => EncodesToTableRow.stRegs x
  | .ldRegs x => EncodesToTableRow.ldRegs x

/-- Settles O16: a word that decodes is the word of its instruction, which a row covers; a covered word decodes. -/
theorem decoderFollowsTheOpcodeMap : Obligations.DecoderFollowsTheOpcodeMap := by
  intro w
  constructor
  · rintro ⟨i, hi⟩
    rw [← encode_of_decodeWord_ok hi]
    exact wellFormedWord_encode i
  · intro hw
    obtain ⟨r, hr, hc⟩ := List.any_eq_true.mp hw
    obtain ⟨i, hi⟩ := exists_decodeFields_of_covers hr hc
    exact ⟨i, (decodeWord_ok_iff w i).mpr hi⟩

end Sys2Proof
end

section
/-! PROOFS. The step runs the decoded instruction (spec/30_encoding.md R94), and the program-counter rule common to
all instructions (R95). -/

namespace Sys2Proof.Machine

/-- Settles O5, by the equations of the step, one per case. -/
theorem stepRunsTheDecodedInstruction : Obligations.StepRunsTheDecodedInstruction :=
  ⟨fun _ => step_of_halted, fun _ _ => step_of_decode_ok, fun _ _ => step_of_decode_error⟩

variable {i : Instr} {s t : State}

theorem exec_pc_of_alwaysAdvances (h : exec i s = .next t) (hi : alwaysAdvances i = true) : t.pc = s.pc + 2 := by
  cases i with
  | ret | jp | call | jpV0 | seImm | sneImm | seReg | sneReg | skp | sknp | ldVxK => cases hi
  | ldB | stRegs | ldRegs => cases h; simp
  | _ => cases h; rfl

theorem exec_of_isSkip (h : exec i s = .next t) (hi : isSkip i = true) : ∃ taken, t = s.skipIf taken := by
  cases i with
  | seImm | sneImm | seReg | sneReg | skp | sknp => cases h; exact ⟨_, rfl⟩
  | _ => cases hi

/-- An instruction that writes the latch is a CALL or a RET that faults, and has no other effect (R205). -/
theorem exec_pc_of_fault_ne (h : exec i s = .next t) (hf : t.fault ≠ s.fault) : t.pc = s.pc := by
  rcases exec_fault_cases h with hsame | ⟨_, _, _, rfl⟩ | ⟨_, _, rfl⟩
  · exact absurd hsame hf
  · rfl
  · rfl

/-- Settles O26: the instructions that always advance, the skips and the faults, each by its own lemma. -/
theorem programCounterRule : Obligations.ProgramCounterRule := by
  refine fun i s t h => ⟨fun hi => ?_, fun hi => ?_, exec_pc_of_fault_ne h⟩
  · rw [exec_pc_of_alwaysAdvances h hi]
    exact BitVec.toNat_add s.pc 2
  · obtain ⟨taken, rfl⟩ := exec_of_isSkip h hi
    cases taken
    · exact .inl (BitVec.toNat_add s.pc 2)
    · exact .inr (BitVec.toNat_add s.pc 4)

end Sys2Proof.Machine
end

section
/-! PROOFS. Control transfer (spec/40_flow.md R110 to R117), the two stack faults (spec/60_exceptions.md R203, R204)
and the end of a run (spec/70_reset_and_hazards.md R245). -/

namespace Sys2Proof.Machine

/-! What the targets are as numbers, and what a skip makes of its condition. -/

theorem toNat_extendAddr (nnn : Addr) : (extendAddr nnn).toNat = nnn.toNat :=
  BitVec.toNat_setWidth_of_le (by decide)

theorem toNat_extendByte (b : Byte) : (extendByte b).toNat = b.toNat := BitVec.toNat_setWidth_of_le (by decide)

/-- A value that has only 12 bits survives as an address field. -/
theorem extendAddr_setWidth {w : Word} (h : w.toNat ≤ 0x0FFF) : extendAddr (w.setWidth 12) = w := by
  apply BitVec.eq_of_toNat_eq
  rw [toNat_extendAddr, BitVec.toNat_setWidth]
  exact Nat.mod_eq_of_lt (Nat.lt_succ_of_le h)

/-- The largest sum, 0x0FFF + 0xFF, fits 16 bits (R117). -/
theorem toNat_extendAddr_add_extendByte (nnn : Addr) (b : Byte) :
    (extendAddr nnn + extendByte b).toNat = nnn.toNat + b.toNat := by
  have hnnn := nnn.isLt
  have hb := b.isLt
  rw [BitVec.toNat_add, toNat_extendAddr, toNat_extendByte]
  omega

section
variable (s : State) {n : Nat} (a b : BitVec n)

theorem State.toNat_skipIf_pc (taken : Bool) :
    (s.skipIf taken).pc.toNat = (s.pc.toNat + if taken then 4 else 2) % 65536 := by
  cases taken
  · exact BitVec.toNat_add s.pc 2
  · exact BitVec.toNat_add s.pc 4

theorem State.toNat_skipIf_beq_pc :
    (s.skipIf (a == b)).pc.toNat = (s.pc.toNat + if a.toNat = b.toNat then 4 else 2) % 65536 := by
  rw [s.toNat_skipIf_pc]
  simp only [beq_iff_eq, BitVec.toNat_inj]

theorem State.toNat_skipIf_bne_pc :
    (s.skipIf (a != b)).pc.toNat = (s.pc.toNat + if a.toNat = b.toNat then 2 else 4) % 65536 := by
  rw [s.toNat_skipIf_pc]
  simp only [bne_iff_ne, BitVec.toNat_inj, ne_eq, ite_not]

end

/-- Settles O21: each jump writes `pc` and nothing else. -/
theorem jumpsSetPc : Obligations.JumpsSetPc :=
  ⟨fun nnn s => ⟨isWord_of_toNat_encode (toNat_encodeNNN 0x1 nnn), _, rfl, toNat_extendAddr nnn,
      s.changesOnly_setPc _⟩,
    fun nnn s => ⟨isWord_of_toNat_encode (toNat_encodeNNN 0xB nnn), _, rfl,
      toNat_extendAddr_add_extendByte nnn (s.readV 0), s.changesOnly_setPc _⟩⟩

/-- Settles O24: the handlers are skips on the comparison of the register with the immediate. -/
theorem skipsOnImmediate : Obligations.SkipsOnImmediate :=
  ⟨fun x kk s => ⟨isWord_of_toNat_encode (toNat_encodeXKK 0x3 x kk), _, rfl,
      s.toNat_skipIf_beq_pc (s.readV x) kk, s.changesOnly_skipIf _⟩,
    fun x kk s => ⟨isWord_of_toNat_encode (toNat_encodeXKK 0x4 x kk), _, rfl,
      s.toNat_skipIf_bne_pc (s.readV x) kk, s.changesOnly_skipIf _⟩⟩

/-- Settles O25: the handlers are skips on the comparison of the two registers. -/
theorem skipsOnRegisters : Obligations.SkipsOnRegisters :=
  ⟨fun x y s => ⟨isWord_of_toNat_encode (toNat_encodeXYN 0x5 x y 0x0), _, rfl,
      s.toNat_skipIf_beq_pc (s.readV x) (s.readV y), s.changesOnly_skipIf _⟩,
    fun x y s => ⟨isWord_of_toNat_encode (toNat_encodeXYN 0x9 x y 0x0), _, rfl,
      s.toNat_skipIf_bne_pc (s.readV x) (s.readV y), s.changesOnly_skipIf _⟩⟩

/-! The stack entry that a push writes and a pop reads, as a part of the state (R25). -/

theorem State.observe_stackEntry (s : State) {k : Nat} (hk : k < 16) :
    s.observe (.stackEntry (BitVec.ofNat 4 k)) = s.stack[k].toNat := by
  simp [State.observe, Nat.mod_eq_of_lt hk]

theorem State.observe_push_stackEntry (s : State) (w : Word) (h : s.sp.val < 16) :
    (s.push w).observe (.stackEntry (BitVec.ofNat 4 s.sp.val)) = w.toNat := by
  rw [State.observe_stackEntry _ h, (s.push_spec w h).2 _ h, if_pos rfl]

theorem State.toNat_top (s : State) (h : 0 < s.sp.val) :
    s.top.toNat = s.observe (.stackEntry (BitVec.ofNat 4 (s.sp.val - 1))) := by
  have hk : s.sp.val - 1 < 16 := by omega
  rw [s.observe_stackEntry hk, (s.pop_spec h).2]

/-- A pop and a jump change `pc` and `SP`. -/
theorem State.changesOnly_pop_setPc (s : State) (target : Word) :
    ChangesOnly (fun p => p = .pc ∨ p = .stackPointer) s (s.pop.setPc target) :=
  (s.changesOnly_pop.mono fun _ => .inr).trans ((s.pop.changesOnly_setPc _).mono fun _ => .inl)

/-- Settles O20: a pop and a write of `pc` with an entry on the stack, the fault alone without one. -/
theorem retPopsOrUnderflows : Obligations.RetPopsOrUnderflows := by
  refine ⟨isWord_of_toNat_encode rfl, fun s h => ?_, fun s h => ?_⟩
  · exact ⟨_, execRet_of_nonempty h, (s.pop_spec h).1, s.toNat_top h, s.changesOnly_pop_setPc _⟩
  · exact ⟨_, execRet_of_empty h, rfl, s.changesOnly_raiseFault _ _ _⟩

/-- A push and a jump change `pc`, `SP` and the entry that `SP` named. -/
theorem State.changesOnly_push_setPc (s : State) (w target : Word) (h : s.sp.val < 16) :
    ChangesOnly (fun p => p = .pc ∨ p = .stackPointer ∨ p = .stackEntry (BitVec.ofNat 4 s.sp.val)) s
      ((s.push w).setPc target) :=
  ((s.changesOnly_push w h).mono fun _ => .inr).trans (((s.push w).changesOnly_setPc _).mono fun _ => .inl)

/-- Settles O22: a push and a write of `pc` while an entry is free, the fault alone on a full stack. -/
theorem callPushesOrOverflows : Obligations.CallPushesOrOverflows := by
  have hword (nnn : Addr) : (encode (.call nnn)).toNat = 0x2000 + nnn.toNat := toNat_encodeNNN 0x2 nnn
  refine ⟨fun nnn => isWord_of_toNat_encode (hword nnn), fun nnn s h => ?_, fun nnn s h => ?_⟩
  · have hentry := (s.observe_push_stackEntry (s.pc + 2) h).trans (BitVec.toNat_add s.pc 2)
    exact ⟨_, execCall_of_room h, (s.push_spec (s.pc + 2) h).1, hentry, toNat_extendAddr nnn,
      s.changesOnly_push_setPc _ _ h⟩
  · exact ⟨_, execCall_of_full h, rfl, rfl, hword nnn, s.changesOnly_raiseFault _ _ _⟩

/-- A frame need not name a part that, though written on the way, reads in the end as it did. -/
theorem ChangesOnly.except {a b : Part → Prop} {s t : State} {q : Part} (h : ChangesOnly a s t)
    (hq : t.observe q = s.observe q) (hab : ∀ p, a p → b p ∨ p = q) : ChangesOnly b s t := by
  intro p hp
  by_cases ha : a p
  · rw [(hab p ha).resolve_left hp, hq]
  · exact h p ha

/-- A RET after a push goes to the pushed address, wherever the push's own jump went. -/
theorem execRet_push_setPc {s : State} (w target : Word) (h : s.sp.val < 16) :
    exec .ret ((s.push w).setPc target) = .next (((s.push w).setPc target).pop.setPc w) := by
  have hsp : ((s.push w).setPc target).sp.val = s.sp.val + 1 := (s.push_spec w h).1
  have htop : ((s.push w).setPc target).top = w := (s.top_push w h).1
  rw [execRet_of_nonempty (by omega), htop]

/-- Settles O23: the pop takes back what the push put there, so that `SP` drops out of the frame of the two. -/
theorem callThenRetReturns : Obligations.CallThenRetReturns := by
  intro nnn s h
  have hsp : (s.push (s.pc + 2)).pop.sp = s.sp := (s.top_push (s.pc + 2) h).2
  have hframe := (s.changesOnly_push_setPc (s.pc + 2) (extendAddr nnn) h).trans
    ((State.changesOnly_pop_setPc _ (s.pc + 2)).mono fun _ => Or.imp_right .inl)
  exact ⟨_, _, execCall_of_room h, execRet_push_setPc _ _ h, BitVec.toNat_add s.pc 2, hsp,
    hframe.except (q := .stackPointer) (congrArg Fin.val hsp) (by tauto)⟩

/-- What the end of a run is (R245): the core runs, and the word at `pc` is the JP to it. -/
theorem State.endOfRun_iff (s : State) : s.endOfRun = true ↔
    s.halted = false ∧ s.pc.toNat ≤ 0x0FFF ∧ s.fetch16 s.pc.toNat = 0x1000#16 + s.pc := by
  simp only [State.endOfRun, Bool.and_eq_true, Bool.not_eq_true', decide_eq_true_eq, beq_iff_eq, and_assoc]

/-- The word of the JP to a 12-bit address is that address added to 0x1000 (R111). -/
theorem encode_jp_setWidth {w : Word} (h : w.toNat ≤ 0x0FFF) : encode (.jp (w.setWidth 12)) = 0x1000#16 + w := by
  apply BitVec.eq_of_toNat_eq
  have hw : (w.setWidth 12).toNat = w.toNat := by rw [← toNat_extendAddr, extendAddr_setWidth h]
  rw [encode, toNat_encodeNNN, hw, BitVec.toNat_add]
  exact (Nat.mod_eq_of_lt (by omega)).symm

/-- Settles O58: the fetched word decodes to the JP to `pc`, which writes to `pc` what it holds. -/
theorem endOfRunLoopsInPlace : Obligations.EndOfRunLoopsInPlace := by
  intro s h
  obtain ⟨hrun, hpc, hword⟩ := s.endOfRun_iff.mp h
  have hdecode : decodeWord (s.fetch16 s.pc.toNat) = .ok (.jp (s.pc.setWidth 12)) := by
    rw [hword, ← encode_jp_setWidth hpc, decodeWord_encode]
  calc step s = exec (.jp (s.pc.setWidth 12)) s := step_of_decode_ok hrun hdecode
    _ = .next (s.setPc (extendAddr (s.pc.setWidth 12))) := rfl
    _ = .next (s.setPc s.pc) := by rw [extendAddr_setWidth hpc]
    _ = .next s := rfl

end Sys2Proof.Machine
end

section
/-! PROOFS. Loads, arithmetic, logic and shifts (spec/41_alu.md R130 to R140). The handlers have two shapes: a write
of Vx alone, and the result to Vx followed by the flag to VF (R142). -/

namespace Sys2Proof.Machine

/-- The words of the family 8xyn (R86). -/
theorem isWord_of_encode_eq_family8 {n : Nibble} {x y : Reg} {i : Instr} (h : encode i = encodeXYN 0x8 x y n) :
    IsWord (0x8000 + n.toNat + 0x100 * x.toNat + 0x10 * y.toNat) i := by
  apply isWord_of_toNat_encode
  rw [h, toNat_encodeXYN]
  have h8 : (0x8 : Nibble).toNat = 8 := rfl
  omega

/-! What each shape does. -/

section
variable (s : State) (x : Reg) (b : Byte) (f : Bool)

theorem State.readV_writeV_advancePc : (s.writeV x b).advancePc.readV x = b := by simp

/-- Around the write of Vx: `pc` goes up by 2 and nothing else changes, no flag either. -/
theorem State.writeV_advancePc_frame :
    (s.writeV x b).advancePc.pc.toNat = (s.pc.toNat + 2) % 65536 ∧
      ChangesOnly (fun p => p = .reg x ∨ p = .pc) s (s.writeV x b).advancePc :=
  ⟨BitVec.toNat_add s.pc 2,
    ((s.changesOnly_writeV x b).mono fun _ => .inl).trans ((State.changesOnly_advancePc _).mono fun _ => .inr)⟩

theorem State.changesOnly_writeResultThenFlag_advancePc :
    ChangesOnly (fun p => p = .reg x ∨ p = .reg 0xF#4 ∨ p = .pc) s (s.writeResultThenFlag x b f).advancePc :=
  ((s.changesOnly_writeResultThenFlag x b f).mono fun _ => Or.imp_right .inl).trans
    ((State.changesOnly_advancePc _).mono fun _ hp => .inr (.inr hp))

end

/-- The whole effect of an instruction that writes a result and then a flag, given the two as numbers: the flag is
written last, so the result is lost when x is F (R142). -/
theorem exists_next_of_writeResultThenFlag {i : Instr} {s : State} {x : Reg} {b : Byte} {f : Bool}
    {flag result : Nat} (h : exec i s = .next (s.writeResultThenFlag x b f).advancePc) (hf : f.toNat = flag)
    (hb : b.toNat = result) :
    ∃ t, exec i s = .next t ∧ (t.readV 0xF#4).toNat = flag ∧ (x ≠ 0xF#4 → (t.readV x).toNat = result) ∧
      t.pc.toNat = (s.pc.toNat + 2) % 65536 ∧ ChangesOnly (fun p => p = .reg x ∨ p = .reg 0xF#4 ∨ p = .pc) s t := by
  refine ⟨_, h, ?_, fun hx => ?_, BitVec.toNat_add s.pc 2, s.changesOnly_writeResultThenFlag_advancePc x b f⟩
  · rw [State.readV_advancePc, State.readV_flag_writeResultThenFlag, State.toNat_flagByte, hf]
  · rw [State.readV_advancePc, State.readV_writeResultThenFlag, if_neg hx, if_pos rfl, hb]

/-! The flags and the results as numbers. -/

section
variable (a b : Byte)

theorem toNat_carryOut : (carryOut a b).toNat = if a.toNat + b.toNat > 255 then 1 else 0 := Bool.cond_decide ..

theorem toNat_noBorrow : (noBorrow a b).toNat = if a.toNat ≥ b.toNat then 1 else 0 := Bool.cond_decide ..

theorem toNat_lowBit : (lowBit a).toNat = a.toNat % 2 := by
  rw [lowBit, BitVec.getLsbD, Nat.toNat_testBit, pow_zero, Nat.div_one]

theorem toNat_highBit : (highBit a).toNat = a.toNat / 128 := by
  have ha := a.isLt
  rw [highBit, BitVec.getLsbD, Nat.toNat_testBit]
  omega

theorem toNat_byte_sub : (a - b).toNat = (a.toNat + 256 - b.toNat) % 256 := by
  have hb := b.isLt
  rw [BitVec.toNat_sub]
  omega

theorem toNat_byte_ushiftRight_one : (a >>> 1).toNat = a.toNat / 2 := BitVec.toNat_ushiftRight a 1

theorem toNat_byte_shiftLeft_one : (a <<< 1).toNat = a.toNat * 2 % 256 := by
  rw [BitVec.toNat_shiftLeft, Nat.shiftLeft_eq, pow_one]

end

/-- Settles O27: each handler is a write of Vx alone. -/
theorem loadsAndAddImmediate : Obligations.LoadsAndAddImmediate := by
  refine ⟨fun x kk s => ⟨isWord_of_toNat_encode (toNat_encodeXKK 0x6 x kk), _, rfl, ?_, s.writeV_advancePc_frame x _⟩,
    fun x kk s => ⟨isWord_of_toNat_encode (toNat_encodeXKK 0x7 x kk), _, rfl, ?_, s.writeV_advancePc_frame x _⟩,
    fun x y s => ⟨isWord_of_encode_eq_family8 (n := 0x0) rfl, _, rfl, ?_, s.writeV_advancePc_frame x _⟩⟩
  · exact s.readV_writeV_advancePc x kk
  · rw [s.readV_writeV_advancePc, BitVec.toNat_add]
  · exact s.readV_writeV_advancePc x (s.readV y)

/-- Settles O28: each handler is a write of Vx alone, of the operation on the two registers. -/
theorem logicOperations : Obligations.LogicOperations := by
  refine ⟨fun x y s => ⟨isWord_of_encode_eq_family8 (n := 0x1) rfl, _, rfl, ?_, s.writeV_advancePc_frame x _⟩,
    fun x y s => ⟨isWord_of_encode_eq_family8 (n := 0x2) rfl, _, rfl, ?_, s.writeV_advancePc_frame x _⟩,
    fun x y s => ⟨isWord_of_encode_eq_family8 (n := 0x3) rfl, _, rfl, ?_, s.writeV_advancePc_frame x _⟩⟩
  · intro j _
    rw [s.readV_writeV_advancePc, BitVec.getLsbD_or]
  · intro j _
    rw [s.readV_writeV_advancePc, BitVec.getLsbD_and]
  · intro j _
    rw [s.readV_writeV_advancePc, BitVec.getLsbD_xor]

/-- Settles O29: the sum to Vx, then the carry to VF. -/
theorem addWithCarryOut : Obligations.AddWithCarryOut := fun x y s =>
  ⟨isWord_of_encode_eq_family8 (n := 0x4) rfl,
    exists_next_of_writeResultThenFlag rfl (toNat_carryOut (s.readV x) (s.readV y))
      (BitVec.toNat_add (s.readV x) (s.readV y))⟩

/-- Settles O30: the difference to Vx, then the not-borrow to VF; SUBN exchanges the operands. -/
theorem subtractionsWithNotBorrowOut : Obligations.SubtractionsWithNotBorrowOut :=
  ⟨fun x y s => ⟨isWord_of_encode_eq_family8 (n := 0x5) rfl,
      exists_next_of_writeResultThenFlag rfl (toNat_noBorrow (s.readV x) (s.readV y))
        (toNat_byte_sub (s.readV x) (s.readV y))⟩,
    fun x y s => ⟨isWord_of_encode_eq_family8 (n := 0x7) rfl,
      exists_next_of_writeResultThenFlag rfl (toNat_noBorrow (s.readV y) (s.readV x))
        (toNat_byte_sub (s.readV y) (s.readV x))⟩⟩

/-- Settles O31: Vx shifted by one to Vx, then the bit shifted out to VF; the handlers do not read Vy. -/
theorem shiftsInPlace : Obligations.ShiftsInPlace :=
  ⟨fun x _ s => ⟨isWord_of_encode_eq_family8 (n := 0x6) rfl,
      exists_next_of_writeResultThenFlag rfl (toNat_lowBit (s.readV x)) (toNat_byte_ushiftRight_one (s.readV x))⟩,
    fun x _ s => ⟨isWord_of_encode_eq_family8 (n := 0xE) rfl,
      exists_next_of_writeResultThenFlag rfl (toNat_highBit (s.readV x)) (toNat_byte_shiftLeft_one (s.readV x))⟩⟩

end Sys2Proof.Machine
end

section
/-! PROOFS. The index register and memory (spec/42_index_memory.md R150 to R156). Every handler is one operation on I,
on memory or on the registers, followed by the step of `pc`. -/

namespace Sys2Proof.Machine

/-- The words of the family Fxkk (R88). -/
theorem isWord_of_encode_eq_familyF {kk : Byte} {x : Reg} {i : Instr} (h : encode i = encodeXKK 0xF x kk) :
    IsWord (0xF000 + kk.toNat + 0x100 * x.toNat) i := by
  apply isWord_of_toNat_encode
  rw [h, toNat_encodeXKK]
  have hF : (0xF : Nibble).toNat = 15 := rfl
  omega

/-! The step of `pc` that ends every handler here (R95). -/

theorem State.toNat_advancePc_pc {s t : State} (h : t.pc = s.pc) : t.advancePc.pc.toNat = (s.pc.toNat + 2) % 65536 := by
  rw [State.advancePc_pc, h]
  exact BitVec.toNat_add s.pc 2

theorem ChangesOnly.advancePc {touched : Part → Prop} {s t : State} (h : ChangesOnly touched s t) :
    ChangesOnly (fun p => p = .pc ∨ touched p) s t.advancePc :=
  (h.mono fun _ => .inr).trans (t.changesOnly_advancePc.mono fun _ => .inl)

/-- Around the write of I: `pc` goes up by 2 and nothing else changes, no flag either. -/
theorem State.setI_advancePc_frame (s : State) (w : Word) :
    (s.setI w).advancePc.pc.toNat = (s.pc.toNat + 2) % 65536 ∧
      ChangesOnly (fun p => p = .index ∨ p = .pc) s (s.setI w).advancePc :=
  ⟨State.toNat_advancePc_pc rfl, (s.changesOnly_setI w).advancePc.mono fun _ => Or.symm⟩

/-- Settles O34: both handlers are a write of I; the 8 bits of Vx are extended, and the sum wraps at 16 bits. -/
theorem indexLoadAndAdd : Obligations.IndexLoadAndAdd := by
  refine ⟨fun nnn s => ⟨isWord_of_toNat_encode (toNat_encodeNNN 0xA nnn), _, rfl, toNat_extendAddr nnn,
      s.setI_advancePc_frame _⟩,
    fun x s => ⟨isWord_of_encode_eq_familyF (kk := 0x1E) rfl, _, rfl, ?_, s.setI_advancePc_frame _⟩⟩
  rw [State.advancePc_i, State.setI_i, BitVec.toNat_add, toNat_extendByte]

/-- The address of a glyph fits 16 bits wherever the font may lie (R8, R152). -/
theorem toNat_glyphAddress (base : Fin 0x1B1) (b : Byte) :
    (glyphAddress base.val b).toNat = base.val + 5 * b.toNat := by
  have hbase := base.isLt
  have hb := b.isLt
  exact Nat.mod_eq_of_lt (show base.val + 5 * b.toNat < 65536 by omega)

/-- Settles O35: the handler writes the glyph's address to I, at most 0x1B0 + 5 * 0xFF. -/
theorem fontGlyphAddress : Obligations.FontGlyphAddress := by
  intro x s
  have hi := toNat_glyphAddress Config.fontBase (s.readV x)
  have hmax : (glyphAddress Config.fontBase.val (s.readV x)).toNat ≤ 0x6AB := by
    have hbase := Config.fontBase.isLt
    have hx := (s.readV x).isLt
    omega
  exact ⟨isWord_of_encode_eq_familyF (kk := 0x29) rfl, _, rfl, hi, hmax, s.setI_advancePc_frame _⟩

/-! What the block moves leave where: byte j at I + j, and Vz at I + z. -/

theorem State.memRead_memWriteList_index (s : State) {bs : List Byte} {j : Nat} (hl : bs.length ≤ Config.memSize)
    (hj : j < bs.length) : (s.memWriteList (s.dataAddress 0) bs).memRead (s.i.toNat + j) = bs[j] :=
  s.memRead_memWriteList _ _ bs hl j hj rfl

theorem State.memRead_storeRegisters_index (s : State) {n : Nat} {z : Reg} (hn : n ≤ 16) (hz : z.toNat < n) :
    (s.storeRegisters n).memRead (s.i.toNat + z.toNat) = s.readV z :=
  (s.memRead_storeRegisters_same hn hz rfl).trans (by rw [BitVec.ofNat_toNat, BitVec.setWidth_eq])

theorem State.readV_loadRegisters_index (s : State) {n : Nat} {z : Reg} (hn : n ≤ 16) (hz : z.toNat < n) :
    (s.loadRegisters n).readV z = s.memRead (s.i.toNat + z.toNat) :=
  (s.readV_loadRegisters n hn z).trans (if_pos hz)

/-- The decimal digits of a byte as numbers (R153). -/
theorem toNat_decimalDigits (b : Byte) :
    (decimalDigits b).map BitVec.toNat = [b.toNat / 100, b.toNat / 10 % 10, b.toNat % 10] := by
  have hb := b.isLt
  have hdigit {d : Nat} (hd : d ≤ b.toNat) : (BitVec.ofNat 8 d).toNat = d := Nat.mod_eq_of_lt (by omega)
  rw [decimalDigits, List.map_cons, List.map_cons, List.map_singleton, hdigit (by omega), hdigit (by omega),
    hdigit (by omega)]

/-- The digits of a byte stored from I on read back as numbers. -/
theorem State.toNat_memRead_decimalDigits (s : State) (b : Byte) {j d : Nat}
    (h : [b.toNat / 100, b.toNat / 10 % 10, b.toNat % 10][j]? = some d) :
    ((s.memWriteList (s.dataAddress 0) (decimalDigits b)).memRead (s.i.toNat + j)).toNat = d := by
  rw [← toNat_decimalDigits, List.getElem?_map, Option.map_eq_some_iff] at h
  obtain ⟨digit, hdigit, rfl⟩ := h
  obtain ⟨hj, rfl⟩ := List.getElem?_eq_some_iff.mp hdigit
  rw [s.memRead_memWriteList_index (bs := decimalDigits b) (show 3 ≤ 4096 by decide) hj]

/-- Settles O36: the three bytes read back as the digits of Vx, and a byte is below 256. -/
theorem decimalDigitsStored : Obligations.DecimalDigitsStored := by
  intro x s
  have hx := (s.readV x).isLt
  have hhundreds := s.toNat_memRead_decimalDigits (s.readV x) (j := 0) rfl
  have htens := s.toNat_memRead_decimalDigits (s.readV x) (j := 1) rfl
  have hones := s.toNat_memRead_decimalDigits (s.readV x) (j := 2) rfl
  rw [Nat.add_zero] at hhundreds
  refine ⟨isWord_of_encode_eq_familyF (kk := 0x33) rfl, _, rfl, ?_, ?_, ?_, ?_,
    State.toNat_advancePc_pc (s.memWriteList_pc _ _),
    (s.changesOnly_memWriteList (decimalDigits (s.readV x))).advancePc⟩ <;>
  · simp only [State.memRead_advancePc, hhundreds, htens, hones]
    omega

/-- Settles O37: the handler stores x + 1 registers, and moves `pc` on. -/
theorem registersStored : Obligations.RegistersStored := fun x s =>
  ⟨isWord_of_encode_eq_familyF (kk := 0x55) rfl, _, rfl,
    fun _ hz => s.memRead_storeRegisters_index x.isLt (Nat.lt_succ_of_le hz),
    State.toNat_advancePc_pc (s.storeRegisters_pc _), (s.changesOnly_storeRegisters _ x.isLt).advancePc⟩

/-- Settles O38: the handler loads x + 1 registers, and moves `pc` on. -/
theorem registersLoaded : Obligations.RegistersLoaded := by
  intro x s
  have hframe := (s.changesOnly_loadRegisters _ x.isLt).advancePc
  simp only [Nat.lt_succ_iff] at hframe
  exact ⟨isWord_of_encode_eq_familyF (kk := 0x65) rfl, _, rfl,
    fun _ hz => s.readV_loadRegisters_index x.isLt (Nat.lt_succ_of_le hz),
    State.toNat_advancePc_pc (s.loadRegisters_pc _), hframe⟩

/-- Settles O39: the load reads Vz at I + z, where the store put it. -/
theorem storeThenLoadRestoresRegisters : Obligations.StoreThenLoadRestoresRegisters := by
  intro x s t u h hmem hi
  cases h
  refine ⟨_, rfl, fun z hz => ?_⟩
  have hz' : z.toNat < x.toNat + 1 := Nat.lt_succ_of_le hz
  calc (u.loadRegisters (x.toNat + 1)).readV z = u.memRead (u.i.toNat + z.toNat) :=
        u.readV_loadRegisters_index x.isLt hz'
    _ = (s.storeRegisters (x.toNat + 1)).memRead (s.i.toNat + z.toNat) := by rw [hi]; exact State.memRead_congr hmem _
    _ = s.readV z := s.memRead_storeRegisters_index x.isLt hz'

end Sys2Proof.Machine
end

section
/-! PROOFS. The display (spec/43_display.md R170 to R172). What a drawing does is said through `spriteBitAt`, which
tells of each pixel whether the sprite puts a 1 on it. -/

namespace Sys2Proof.Machine

/-- Settles O43: the handler writes the blank framebuffer and moves `pc` on. -/
theorem clearScreen : Obligations.ClearScreen := fun s =>
  ⟨isWord_of_toNat_encode rfl, _, rfl, Framebuffer.pixel_blank, BitVec.toNat_add s.pc 2,
    (s.changesOnly_setFb Framebuffer.blank).advancePc⟩

theorem flagByte_eq_one_iff {f : Bool} : flagByte f = 1 ↔ f = true := by cases f <;> decide

theorem flagByte_eq_zero_iff {f : Bool} : flagByte f = 0 ↔ f = false := by cases f <;> decide

section
variable (s : State) (x y : Reg) (n : Nibble)

/-- A sprite bit of 1 falls on some pixel that has the value `v` (R171, R172). -/
def State.SpriteMeets (v : Bool) : Prop := ∃ r c, spriteBitAt s x y n r c = true ∧ s.fb.pixel r c = v

/-- The drawing that DRW makes of the framebuffer (R171). -/
def State.drawing : Drawing :=
  Drawing.plotRows ⟨s.fb, false⟩ s.spriteByte (s.spriteRow y) (s.spriteColumn x) n.toNat

theorem exec_drw : exec (.drw x y n) s =
    .next ((s.setFb (s.drawing x y n).fb).writeV flagReg (flagByte (s.drawing x y n).collision)).advancePc := rfl

/-- The sprite of the rule's loop is the one said pixel by pixel: a coordinate reduced twice is reduced once. -/
theorem spriteFallsOn_eq_spriteBitAt :
    spriteFallsOn s.spriteByte (s.spriteRow y) (s.spriteColumn x) n.toNat = spriteBitAt s x y n := by
  funext r c
  have hrow : rowOffset (s.spriteRow y) r = (r.val + 32 - (s.readV y).toNat % 32) % 32 := by
    rw [rowOffset, State.spriteRow, Config.fbHeight, Nat.mod_mod]
  have hcolumn : columnOffset (s.spriteColumn x) c = (c.val + 64 - (s.readV x).toNat % 64) % 64 := by
    rw [columnOffset, State.spriteColumn, Config.fbWidth, Nat.mod_mod]
  rw [spriteFallsOn, hrow, hcolumn]
  rfl

/-- A sprite has at most 15 rows, so the drawing meets no pixel twice. -/
theorem State.drawing_spec :
    (∀ r c, (s.drawing x y n).fb.pixel r c = (s.fb.pixel r c != spriteBitAt s x y n r c)) ∧
      ((s.drawing x y n).collision = true ↔ s.SpriteMeets x y n true) := by
  have h := Drawing.plotRows_spec ⟨s.fb, false⟩ s.spriteByte (s.spriteRow y) (s.spriteColumn x) n.toNat (by omega)
  rw [spriteFallsOn_eq_spriteBitAt] at h
  simpa [State.SpriteMeets, State.drawing] using h

end

section
variable {x y : Reg} {n : Nibble} {s t : State} (h : exec (.drw x y n) s = .next t)
include h

theorem exec_drw_pixel (r : Fin 32) (c : Fin 64) : t.fb.pixel r c = (s.fb.pixel r c != spriteBitAt s x y n r c) := by
  cases h
  exact (s.drawing_spec x y n).1 r c

theorem exec_drw_flag : t.readV 0xF#4 = flagByte (s.drawing x y n).collision := by
  cases h
  exact (State.readV_writeV ..).trans (if_pos rfl)

theorem exec_drw_flag_eq_one_iff : t.readV 0xF#4 = 1 ↔ s.SpriteMeets x y n true := by
  rw [exec_drw_flag h, flagByte_eq_one_iff, (s.drawing_spec x y n).2]

theorem exec_drw_flag_eq_zero_iff : t.readV 0xF#4 = 0 ↔ ¬ s.SpriteMeets x y n true := by
  rw [exec_drw_flag h, flagByte_eq_zero_iff, ← (s.drawing_spec x y n).2, Bool.not_eq_true]

theorem exec_drw_frame : ChangesOnly (fun p => p = .reg 0xF#4 ∨ p = .pc ∨ ∃ r c, p = .pixel r c) s t := by
  refine ChangesOnly.mono (exec_writtenOnly h) fun p hp => ?_
  cases p with
  | reg z => exact .inl (congrArg Part.reg (eq_of_beq hp))
  | pc => exact .inr (.inl rfl)
  | pixel r c => exact .inr (.inr ⟨r, c, rfl⟩)
  | _ => cases hp

/-- A DRW that leaves its coordinates as they were leaves its sprite where it was, since it writes neither I nor
memory. -/
theorem exec_drw_spriteBitAt (hx : t.readV x = s.readV x) (hy : t.readV y = s.readV y) :
    spriteBitAt t x y n = spriteBitAt s x y n := by
  funext r c
  rw [spriteBitAt, spriteBitAt, hx, hy]
  cases h
  rfl

/-- The second of two drawings of one sprite meets a set pixel where the first met a clear one. -/
theorem exec_drw_spriteMeets_true_iff (hx : t.readV x = s.readV x) (hy : t.readV y = s.readV y) :
    t.SpriteMeets x y n true ↔ s.SpriteMeets x y n false := by
  simp only [State.SpriteMeets, exec_drw_spriteBitAt h hx hy, exec_drw_pixel h]
  refine exists₂_congr fun r c => and_congr_right fun hbit => ?_
  rw [hbit, Bool.bne_true, Bool.not_eq_true']

end

/-- Settles O44: the pixels and VF by what a drawing does, the frame by the list of writers. -/
theorem drawSprite : Obligations.DrawSprite := by
  intro x y n s
  have h := exec_drw s x y n
  refine ⟨isWord_of_toNat_encode (toNat_encodeXYN 0xD x y n), _, h, exec_drw_pixel h,
    (exec_drw_flag_eq_one_iff h).mpr, fun hclear => (exec_drw_flag_eq_zero_iff h).mpr ?_,
    BitVec.toNat_add s.pc 2, exec_drw_frame h⟩
  rintro ⟨r, c, hbit, hset⟩
  exact Bool.false_ne_true ((hclear r c hbit).symm.trans hset)

/-- A sprite of zeros, or of no rows, puts no 1 on any pixel. -/
theorem spriteBitAt_eq_false {n : Nibble} {s : State} (h : ∀ j < n.toNat, s.memRead (s.i.toNat + j) = 0)
    (x y : Reg) (r : Fin 32) (c : Fin 64) : spriteBitAt s x y n r c = false := by
  rw [← Bool.not_eq_true]
  simp only [spriteBitAt, Bool.and_eq_true, decide_eq_true_eq]
  rintro ⟨⟨hrow, -⟩, hbit⟩
  rw [h _ hrow] at hbit
  simp at hbit

/-- Settles O45: the same bits exclusive-ORed twice cancel, and the second drawing finds the pixels under the sprite
inverted; where no bit is 1 nothing is inverted and nothing met. -/
theorem drawingTwiceRestores : Obligations.DrawingTwiceRestores := by
  refine ⟨fun x y n s t h hx hy => ?_, fun x y n s t h hzeros => ?_⟩
  · have h' := exec_drw t x y n
    refine ⟨_, h', Framebuffer.ext fun r c => ?_, exec_drw_flag_eq_one_iff h,
      (exec_drw_flag_eq_one_iff h').trans (exec_drw_spriteMeets_true_iff h hx hy)⟩
    rw [exec_drw_pixel h', exec_drw_pixel h, exec_drw_spriteBitAt h hx hy, Bool.bne_assoc, bne_self_eq_false,
      Bool.bne_false]
  · have hbit := spriteBitAt_eq_false hzeros x y
    refine ⟨Framebuffer.ext fun r c => ?_, (exec_drw_flag_eq_zero_iff h).mpr ?_⟩
    · rw [exec_drw_pixel h, hbit, Bool.bne_false]
    · rintro ⟨r, c, hone, -⟩
      exact Bool.false_ne_true ((hbit r c).symm.trans hone)

end Sys2Proof.Machine
end

section
/-! PROOFS. The key and timer instructions (spec/44_keys_timers.md R180 to R185). -/

namespace Sys2Proof.Machine

/-- The words of format XKK whose low byte selects the instruction (R87, R88). -/
theorem isWord_of_encode_eq_encodeXKK {op : Nibble} {kk : Byte} {x : Reg} {i : Instr}
    (h : encode i = encodeXKK op x kk) : IsWord (0x1000 * op.toNat + kk.toNat + 0x100 * x.toNat) i := by
  apply isWord_of_toNat_encode
  rw [h, toNat_encodeXKK, Nat.add_right_comm]

/-- The least pressed key is the one the scan finds (R183): it finds some key, and two least keys are one. -/
theorem State.firstPressed_of_least {s : State} {k : Nibble} (hk : s.keyPressed k = true)
    (hbelow : ∀ j, j < k → s.keyPressed j = false) : s.firstPressed = some k := by
  cases hscan : s.firstPressed with
  | none => exact (Bool.false_ne_true ((s.firstPressed_none.mp hscan k).symm.trans hk)).elim
  | some j =>
    obtain ⟨hj, hbelow'⟩ := s.firstPressed_some hscan
    have hkj : k ≤ j := BitVec.not_lt.mp fun hlt => Bool.false_ne_true ((hbelow j hlt).symm.trans hj)
    have hjk : j ≤ k := BitVec.not_lt.mp fun hlt => Bool.false_ne_true ((hbelow' k hlt).symm.trans hk)
    rw [BitVec.le_antisymm hjk hkj]

/-- Settles O48: the scan finds the least pressed key, or none, and a key number extended to a byte keeps its value. -/
theorem keyWait : Obligations.KeyWait := by
  refine ⟨fun _ => isWord_of_encode_eq_familyF (kk := 0x0A) rfl, fun x k s hk hbelow => ?_, fun _ s hnone => ?_⟩
  · refine ⟨_, execLdVxK_of_some (State.firstPressed_of_least hk hbelow), ?_, s.writeV_advancePc_frame x _⟩
    rw [s.readV_writeV_advancePc, BitVec.toNat_setWidth_of_le (by decide)]
  · exact execLdVxK_of_none (s.firstPressed_none.mpr hnone)

section
variable (s : State)

/-- The low four bits of Vx are Vx modulo 16 (R180). -/
theorem State.keyIndex_eq_ofNat (x : Reg) : s.keyIndex x = BitVec.ofNat 4 ((s.readV x).toNat % 16) := by
  apply BitVec.eq_of_toNat_eq
  rw [State.keyIndex, BitVec.toNat_setWidth, BitVec.toNat_ofNat]
  exact (Nat.mod_mod _ 16).symm

theorem State.toNat_skipIf_not_pc (c : Bool) :
    (s.skipIf !c).pc.toNat = (s.pc.toNat + if c then 2 else 4) % 65536 := by
  rw [s.toNat_skipIf_pc]
  cases c <;> rfl

theorem State.soundActive_iff : s.soundActive = true ↔ s.st ≠ 0 := bne_iff_ne

end

/-- Settles O46: both handlers are skips, on the level of the selected key and on its negation. -/
theorem skipsOnKeys : Obligations.SkipsOnKeys := by
  refine ⟨fun _ s => ⟨isWord_of_encode_eq_encodeXKK (op := 0xE) (kk := 0x9E) rfl, _, rfl, ?_, s.changesOnly_skipIf _⟩,
    fun _ s => ⟨isWord_of_encode_eq_encodeXKK (op := 0xE) (kk := 0xA1) rfl, _, rfl, ?_, s.changesOnly_skipIf _⟩⟩
  · rw [s.toNat_skipIf_pc, s.keyIndex_eq_ofNat]
  · rw [s.toNat_skipIf_not_pc, s.keyIndex_eq_ofNat]

/-- Settles O47: each handler is one write, of Vx or of a timer, and the step of `pc`. -/
theorem timerInstructions : Obligations.TimerInstructions :=
  ⟨fun x s => ⟨isWord_of_encode_eq_familyF (kk := 0x07) rfl, _, rfl, s.readV_writeV_advancePc x s.dt,
      s.writeV_advancePc_frame x _⟩,
    fun _ s => ⟨isWord_of_encode_eq_familyF (kk := 0x15) rfl, _, rfl, rfl, State.toNat_advancePc_pc rfl,
      (s.changesOnly_setDt _).advancePc.mono fun _ => Or.symm⟩,
    fun _ s => ⟨isWord_of_encode_eq_familyF (kk := 0x18) rfl, _, rfl, rfl, State.soundActive_iff _,
      State.toNat_advancePc_pc rfl, (s.changesOnly_setSt _).advancePc.mono fun _ => Or.symm⟩⟩

end Sys2Proof.Machine
end

section
/-! PROOFS. Faults (spec/60_exceptions.md R200 to R207): nothing stops the machine outside the latch (R215); the three
causes of a fault, each with its whole effect; and the halted core, which no step and no run changes. -/

namespace Sys2Proof.Machine

/-! Every handler, and so every step, answers a next state. -/

theorem exists_exec_eq_next (i : Instr) (s : State) : ∃ t, exec i s = .next t := by
  cases i with
  | call nnn =>
    rcases Nat.lt_or_eq_of_le (Nat.le_of_lt_succ s.sp.isLt) with hroom | hfull
    · exact ⟨_, execCall_of_room hroom⟩
    · exact ⟨_, execCall_of_full hfull⟩
  | ret =>
    rcases Nat.eq_zero_or_pos s.sp.val with hempty | hpos
    · exact ⟨_, execRet_of_empty hempty⟩
    · exact ⟨_, execRet_of_nonempty hpos⟩
  | ldVxK x =>
    cases hkey : s.firstPressed with
    | none => exact ⟨_, execLdVxK_of_none hkey⟩
    | some k => exact ⟨_, execLdVxK_of_some hkey⟩
  | _ => exact ⟨_, rfl⟩

theorem exists_step_eq_next (s : State) : ∃ t, step s = .next t := by
  cases hh : s.halted with
  | true => exact ⟨s, step_of_halted hh⟩
  | false =>
    cases hd : decodeWord (s.fetch16 s.pc.toNat) with
    | ok i =>
      obtain ⟨t, ht⟩ := exists_exec_eq_next i s
      exact ⟨t, (step_of_decode_ok hh hd).trans ht⟩
    | error e => exact ⟨_, step_of_decode_error hh hd⟩

/-- Settles O10: a handler that looks before it acts answers in every case of what it looks at, and the others do not
look. -/
theorem everyStepAnswersNext : Obligations.EveryStepAnswersNext := ⟨exists_step_eq_next, exists_exec_eq_next⟩

/-! The faults of a running core. -/

/-- What each fault is raised for (R201), as a condition on the state before the step. -/
def State.FaultCause (s : State) : FaultCode → Prop
  | .running => False
  | .illegalInstruction => ∃ e, decodeWord (s.fetch16 s.pc.toNat) = .error e
  | .stackOverflow => (∃ nnn, decodeWord (s.fetch16 s.pc.toNat) = .ok (.call nnn)) ∧ s.sp.val = 16
  | .stackUnderflow => decodeWord (s.fetch16 s.pc.toNat) = .ok .ret ∧ s.sp.val = 0

/-- The state that a fault of the instruction at `pc` leaves (R205). -/
def State.faultAtPc (s : State) (c : FaultCode) : State := s.raiseFault c s.pc (s.fetch16 s.pc.toNat)

section
variable {s t : State} {c : FaultCode}

/-- A cause of a fault raises it, and that is the whole step. -/
theorem step_of_faultCause (hr : s.halted = false) (hc : s.FaultCause c) : step s = .next (s.faultAtPc c) := by
  cases c with
  | running => exact hc.elim
  | illegalInstruction =>
    obtain ⟨e, hd⟩ := hc
    exact step_of_decode_error hr hd
  | stackOverflow =>
    obtain ⟨⟨nnn, hd⟩, hsp⟩ := hc
    rw [step_of_decode_ok hr hd, execCall_of_full hsp, encode_of_decodeWord_ok hd, State.faultAtPc]
  | stackUnderflow =>
    obtain ⟨hd, hsp⟩ := hc
    rw [step_of_decode_ok hr hd, execRet_of_empty hsp, encode_of_decodeWord_ok hd, State.faultAtPc]

/-- A step of a running core leaves it running, or some fault has its cause and is the whole step. -/
theorem step_fault_cases (hr : s.halted = false) (h : step s = .next t) :
    t.halted = false ∨ ∃ c, s.FaultCause c ∧ t = s.faultAtPc c := by
  rcases step_cases h with ⟨hh, _⟩ | ⟨_, i, hd, he⟩ | ⟨_, e, hd, rfl⟩
  · exact absurd (hr.symm.trans hh) Bool.false_ne_true
  · have hw := encode_of_decodeWord_ok hd
    rcases exec_fault_cases he with hf | ⟨nnn, rfl, hsp, rfl⟩ | ⟨rfl, hsp, rfl⟩
    · rw [State.halted_eq_false_iff] at hr ⊢
      exact .inl (hf ▸ hr)
    · exact .inr ⟨.stackOverflow, ⟨⟨nnn, hd⟩, hsp⟩, by rw [hw, State.faultAtPc]⟩
    · exact .inr ⟨.stackUnderflow, ⟨hd, hsp⟩, by rw [hw, State.faultAtPc]⟩
  · exact .inr ⟨.illegalInstruction, ⟨e, hd⟩, rfl⟩

/-- The latch holds a fault after the step exactly when that fault had its cause before it. -/
theorem step_faultCode_iff (hr : s.halted = false) (h : step s = .next t) (hc : c ≠ .running) :
    t.fault.code = c ↔ s.FaultCause c := by
  constructor
  · rintro rfl
    rcases step_fault_cases hr h with ht | ⟨c, hcause, rfl⟩
    · exact absurd (t.halted_eq_false_iff.mp ht) hc
    · exact hcause
  · intro hcause
    cases (step_of_faultCause hr hcause).symm.trans h
    rfl

end

/-- Settles O6, by the equation of the step on an illegal word. -/
theorem illegalWordHalts : Obligations.IllegalWordHalts := fun s _ hr hd =>
  ⟨_, step_of_decode_error hr hd, rfl, rfl, rfl, rfl, s.changesOnly_raiseFault _ _ _⟩

/-- Settles O11: each fault is raised exactly when it has its cause. -/
theorem faultCauses : Obligations.FaultCauses := fun _ _ hr h =>
  ⟨step_faultCode_iff hr h nofun, step_faultCode_iff hr h nofun, step_faultCode_iff hr h nofun⟩

/-- Settles O12: a step that ends halted is the fault entry at `pc`, and nothing else. -/
theorem faultsArePrecise : Obligations.FaultsArePrecise := by
  intro s t hr h ht
  rcases step_fault_cases hr h with hrun | ⟨c, _, rfl⟩
  · exact absurd (hrun.symm.trans ht) Bool.false_ne_true
  · exact ⟨rfl, rfl, s.changesOnly_raiseFault _ _ _⟩

/-! Runs of the machine. -/

theorem run_succ_of_step {n : Nat} {s t : State} (h : step s = .next t) : core.run (n + 1) s = core.run n t := by
  have hstep : core.step s = .next t := h
  simp only [Host.Core.run, hstep]

/-- Settles O8, by induction on the number of steps. -/
theorem haltedRunsStay : Obligations.HaltedRunsStay := by
  intro n s hs
  induction n with
  | zero => rfl
  | succ n ih => rw [run_succ_of_step (step_of_halted hs), ih]

/-- A run that ends on a running core began on one, since a halted core would have stayed. -/
theorem halted_eq_false_of_run {n : Nat} {s t : State} (h : core.run n s = .next t) (ht : t.halted = false) :
    s.halted = false := by
  cases hs : s.halted with
  | false => rfl
  | true =>
    cases (haltedRunsStay n s hs).symm.trans h
    exact hs.symm.trans ht

/-- Settles O9, by induction on the number of steps looked at: the run began on a running core, and after its first
step it is a shorter run with the same end. -/
theorem runEndingUnhaltedWasSafe : Obligations.RunEndingUnhaltedWasSafe := by
  intro n s t h ht k hk
  induction k generalizing n s with
  | zero => exact ⟨s, rfl, halted_eq_false_of_run h ht⟩
  | succ k ih =>
    cases n with
    | zero => exact absurd hk (Nat.not_succ_le_zero k)
    | succ n =>
      obtain ⟨s', hs'⟩ := exists_step_eq_next s
      rw [run_succ_of_step hs'] at h ⊢
      exact ih n s' h (Nat.le_of_succ_le_succ hk)

end Sys2Proof.Machine
end

section
/-! PROOFS. The moves of the host (spec/60_exceptions.md R206, R211, R212, R216; spec/70_reset_and_hazards.md R240,
R243). -/

namespace Sys2Proof.Machine

/-- A tick as a number: natural subtraction stops at 0 as the timer does (R211). -/
theorem toNat_tickTimer (b : Byte) : (tickTimer b).toNat = b.toNat - 1 := by
  unfold tickTimer
  split <;> bv_omega

/-- Settles O52: each timer by what a tick of one timer is, the rest by the frame of the tick. -/
theorem timerTickFloorsAtZero : Obligations.TimerTickFloorsAtZero := fun s =>
  ⟨toNat_tickTimer s.dt, toNat_tickTimer s.st, s.changesOnly_timerTick⟩

/-- Settles O53, by the frame of the key write. -/
theorem keyWriteReplacesAll : Obligations.KeyWriteReplacesAll := fun s keys =>
  ⟨fun _ => rfl, s.changesOnly_setKeys keys⟩

/-! Initialize (R240). -/

theorem Session.move_init (t : Session) : t.move .init = .next (.on .awaitingRom t.initialized, .ok .done) := by
  cases t <;> rfl

/-- The core after initialization is the reset state, but for the model's counter of draws (log entry 3). -/
theorem Session.changesOnly_initialized (t : Session) : ChangesOnly (fun p => p = .draws) State.reset t.initialized := by
  cases t with
  | off => exact .rfl'
  | on _ _ =>
    intro p hp
    cases p with
    | draws => exact absurd rfl hp
    | _ => rfl

/-- Settles O55, by the answer to the initialization and how the core after it differs from reset. -/
theorem initializeResetsEverything : Obligations.InitializeResetsEverything := fun t =>
  ⟨t.initialized, t.move_init, t.changesOnly_initialized⟩

/-! A halted core under the moves of the host (R206). -/

/-- No move but the initialization writes the latch of a halted core. -/
theorem Session.move_fault_of_halted {s t : State} {p q : Phase} {m : HostMove} {r : Except Refusal HostReply}
    (hs : s.halted = true) (h : (Session.on p s).move m = .next (.on q t, r)) (hm : m ≠ .init) : t.fault = s.fault := by
  rcases Session.move_cases h with ⟨hinit, _⟩ | ⟨_, _, ⟨⟩, hmove⟩
  · exact absurd hinit hm
  rcases hmove with ⟨bytes, _, _, hload⟩ | ⟨_, _, s', hstep, ⟨⟩⟩ | ⟨keys, _, ⟨⟩⟩ | ⟨_, ⟨⟩⟩ | ⟨_, ⟨⟩⟩
  · rcases hload with ⟨_, ⟨⟩⟩ | ⟨_, ⟨⟩⟩
    · exact s.memWriteList_fault _ bytes
    · rfl
  · cases (step_of_halted hs).symm.trans hstep
    rfl
  · rfl
  · rfl
  · rfl

/-- Settles O7: a step, a tick, a key write and the reads by their equations, and the core still halted after any
move but the initialization, since its latch is as it was. -/
theorem haltedCoreStaysHalted : Obligations.HaltedCoreStaysHalted := by
  intro s hs
  refine ⟨step_of_halted hs, rfl, toNat_tickTimer s.dt, toNat_tickTimer s.st, fun _ => ⟨rfl, rfl⟩,
    fun _ => ⟨rfl, rfl, rfl⟩, fun p m q t r h ht => ?_⟩
  by_contra hm
  have hfault := Session.move_fault_of_halted hs h hm
  rw [State.halted, hfault] at ht
  exact Bool.false_ne_true (ht.symm.trans hs)

/-! The boot order (R243). -/

theorem Session.moves_cons {t u : Session} {m : HostMove} {ms : List HostMove} (h : t.moves (m :: ms) = .next u) :
    ∃ t' r, t.move m = .next (t', r) ∧ t'.moves ms = .next u := by
  rw [Session.moves] at h
  cases hm : t.move m with
  | next a => rw [hm] at h; exact ⟨a.1, a.2, rfl, h⟩
  | fault f => cases f
  | refused r => rw [hm] at h; cases h

/-- Among the moves `ms` an accepted ROM load comes before every step. -/
def RomLoadBeforeSteps (ms : List HostMove) : Prop :=
  ∃ before bytes after, ms = before ++ HostMove.romLoad bytes :: after ∧ HostMove.step ∉ before ∧ bytes.length ≤ 3584

theorem RomLoadBeforeSteps.cons {m : HostMove} {ms : List HostMove} (h : RomLoadBeforeSteps ms) (hm : m ≠ .step) :
    RomLoadBeforeSteps (m :: ms) := by
  obtain ⟨before, bytes, after, rfl, hstep, hlen⟩ := h
  exact ⟨m :: before, bytes, after, rfl, List.not_mem_cons_of_ne_of_not_mem hm.symm hstep, hlen⟩

/-- From a session that may not step yet, a step takes an accepted ROM load first: every other move the session
answers leaves it one that may not step yet. -/
theorem romLoadBeforeSteps_of_not_running {ms : List HostMove} {p : Phase} {s : State} {u : Session}
    (h : (Session.on p s).moves ms = .next u) (hp : p ≠ .running) (hstep : HostMove.step ∈ ms) :
    RomLoadBeforeSteps ms := by
  induction ms generalizing p s with
  | nil => cases hstep
  | cons m ms ih =>
    have later {q : Phase} {t : State} (ht : (Session.on q t).moves ms = .next u) (hm : m ≠ .step) (hq : q ≠ .running) :
        RomLoadBeforeSteps (m :: ms) :=
      (ih ht hq ((List.mem_cons.mp hstep).resolve_left hm.symm)).cons hm
    obtain ⟨t', r, hmove, hrest⟩ := Session.moves_cons h
    rcases Session.move_cases hmove with ⟨rfl, rfl⟩ | ⟨_, _, ⟨⟩, hmove⟩
    · exact later hrest nofun nofun
    rcases hmove with ⟨bytes, rfl, _, hload⟩ | ⟨_, hrun, _⟩ | ⟨keys, rfl, rfl⟩ | ⟨rfl, rfl⟩ | ⟨hread, rfl⟩
    · rcases hload with ⟨hlen, _⟩ | ⟨_, rfl⟩
      · exact ⟨[], bytes, ms, rfl, List.not_mem_nil, hlen⟩
      · exact later hrest nofun nofun
    · exact absurd hrun hp
    · exact later hrest nofun hp
    · exact later hrest nofun hp
    · exact later hrest (by rintro rfl; simp at hread) hp

/-- Settles O56: the first move that a session answers from power-on is the initialization, and after it the session may
not step yet. -/
theorem noStepBeforeRomLoad : Obligations.NoStepBeforeRomLoad := by
  intro ms u h hstep
  cases ms with
  | nil => cases hstep
  | cons m ms =>
    obtain ⟨t', r, hmove, hrest⟩ := Session.moves_cons h
    rcases Session.move_cases hmove with ⟨rfl, rfl⟩ | ⟨_, _, hoff, _⟩
    · have hmem : HostMove.step ∈ ms := (List.mem_cons.mp hstep).resolve_left nofun
      obtain ⟨before, bytes, after, rfl, hnot, hlen⟩ := romLoadBeforeSteps_of_not_running hrest nofun hmem
      exact ⟨.init :: before, bytes, after, rfl, List.not_mem_cons_of_ne_of_not_mem nofun hnot, List.mem_cons_self, hlen⟩
    · cases hoff

end Sys2Proof.Machine
end

section
/-! PROOFS. The ROM load (spec/70_reset_and_hazards.md R242; spec/60_exceptions.md R217). A ROM that fits below 4096
wraps nowhere, so the addresses of its bytes need no mask. -/

namespace Sys2Proof.Machine

theorem maskAddress_of_lt {a : Nat} (h : a < 4096) : maskAddress a = a := Nat.mod_eq_of_lt h

/-- Bytes stored from `a` on, none of them beyond the end of memory, change only those bytes. -/
theorem State.changesOnly_memWriteList_of_fits (s : State) {a : Nat} {bs : List Byte} (hfit : a + bs.length ≤ 4096) :
    ChangesOnly (fun p => ∃ c : Addr, p = .memByte c ∧ a ≤ c.toNat ∧ c.toNat < a + bs.length) s
      (s.memWriteList a bs) := by
  refine s.changesOnly_mem (s.memWriteList_frame a bs) _ fun c hc => s.memRead_memWriteList_other _ _ _ fun j hj h => ?_
  rw [maskAddress_of_lt c.isLt, maskAddress_of_lt (by omega)] at h
  omega

theorem State.romLoad_of_fits (s : State) {bytes : List Byte} (h : bytes.length ≤ 3584) :
    s.romLoad bytes = .next (s.memWriteList 0x200 bytes) := if_pos h

theorem State.romLoad_of_too_long (s : State) {bytes : List Byte} (h : 3584 < bytes.length) :
    s.romLoad bytes = .refused .romTooLarge := if_neg (Nat.not_le_of_lt h)

/-- A load that the core refuses is an error reply, and the session keeps the core as it was (R217). -/
theorem Session.move_romLoad_of_refused {s : State} {bytes : List Byte} {r : Refusal}
    (h : s.romLoad bytes = .refused r) :
    (Session.on .awaitingRom s).move (.romLoad bytes) = .next (.on .loadFailed s, .error r) := by
  have hallowed : (HostMove.romLoad bytes).allowed (.on .awaitingRom s) = true := rfl
  rw [Session.move, if_pos hallowed]
  simp only [h]

/-- Only a session that is running may step (R243). -/
theorem Session.move_step_of_not_running {p : Phase} (s : State) (hp : p ≠ .running) :
    (Session.on p s).move .step = .refused .moveNotAllowed :=
  if_neg fun hrun => hp (beq_iff_eq.mp hrun)

/-- Settles O54: a ROM that fits is a list of stores from 0x200 on; a longer one leaves a session that is not
running. -/
theorem romLoadCopiesOrRefuses : Obligations.RomLoadCopiesOrRefuses := by
  refine ⟨fun s bytes hlen => ⟨_, s.romLoad_of_fits hlen, fun j hj => ?_, ?_⟩, fun s bytes hlen => ?_⟩
  · exact s.memRead_memWriteList _ _ bytes (hlen.trans (by decide)) j hj rfl
  · exact s.changesOnly_memWriteList_of_fits (by omega)
  · have hrefused := s.romLoad_of_too_long hlen
    exact ⟨hrefused, Session.move_romLoad_of_refused hrefused, Session.move_step_of_not_running s nofun⟩

end Sys2Proof.Machine
end
